-- ==== Sys2Proof/Word.lean ====
section
/-! DEFINITION. The widths of the CORE: bytes, lane words, 64-bit values and command words
(00_scope.md R7, R8; 30_encoding.md R47). -/

namespace Sys2Proof

/-- `u8` of R8: a message byte or a character code. -/
abbrev Byte := BitVec 8

/-- `u32` of R8: a lane, the seed, the length, a `k` word, the DATA field. -/
abbrev Word := BitVec 32

/-- `u64` of R8: `RESULT` and `SR`. -/
abbrev DWord := BitVec 64

/-- The 40-bit command word `cmd_data[39:0]` of R47. -/
abbrev Command := BitVec 40

end Sys2Proof
end

