-- ==== Sys2Proof/Machine/Operands.lean ====
section
/-! DEFINITION. The operand forms: the fields of a command word (30_encoding.md R47, R50), the byte
order of DATA and of the `k` words (20_memory.md R35, R36; 00_scope.md R10), and the halves of
`RESULT` (R36, 41_base32_encoder.md R88, R89). -/

namespace Sys2Proof.Machine

/-- `OP = cmd_data[39:32]` (R47). -/
def opField (w : Command) : BitVec 8 := w.extractLsb' 32 8

/-- `DATA = cmd_data[31:0]` (R47). -/
def dataField (w : Command) : Word := w.extractLsb' 0 32

/-- `n = OP[1:0] + 1`, the byte count of an ABSORB opcode (R50). -/
def absorbCount (op : BitVec 8) : Nat := (op.extractLsb' 0 2).toNat + 1

/-- Byte `i` of the DATA field, `DATA[8i+7:8i]` (R36, R50). -/
def dataByte (data : Word) (i : Nat) : Byte := data.extractLsb' (8 * i) 8

/-- The `n` bytes an ABSORB delivers, byte 0 first; the bits above them are ignored (R50, R51). -/
def absorbBytes (n : Nat) (data : Word) : List Byte := (List.range n).map (dataByte data)

/-- `le32(b0, b1, ...)`, the sum of `b_i * 2^(8i)` for up to four bytes, with zero in the absent high
bytes (R10, R35). -/
def le32 : List Byte → Word
  | [] => 0
  | b :: bs => b.setWidth 32 + 256 * le32 bs

/-- The `k1` word of a block or tail: its bytes 0 to 3, as many as there are (R35). -/
def k1Word (bytes : List Byte) : Word := le32 (bytes.take 4)

/-- The `k2` word of a block or tail: its bytes 4 to 7, as many as there are (R35). -/
def k2Word (bytes : List Byte) : Word := le32 ((bytes.drop 4).take 4)

/-- `v[31:0]`, DOC0's `low` (R36). -/
def lowHalf (v : DWord) : Word := v.extractLsb' 0 32

/-- `v[63:32]`, DOC0's `high` (R36). -/
def highHalf (v : DWord) : Word := v.extractLsb' 32 32

/-- `v` with `v[31:0]` replaced (R88). -/
def withLowHalf (v : DWord) (data : Word) : DWord := highHalf v ++ data

/-- `v` with `v[63:32]` replaced (R89). -/
def withHighHalf (v : DWord) (data : Word) : DWord := data ++ lowHalf v

end Sys2Proof.Machine
end

