-- ==== Sys2Proof/Syntax.lean ====
section
/-! DEFINITION. The commands of the CORE: one constructor for each row of spec/opcode_table.json
(30_encoding.md R49). Ignored bits (R51) are no part of a command. -/

namespace Sys2Proof

/-- A command, with its operand as R49 and R50 assemble it. -/
inductive Instr where
  /-- NOP (42_control.md R97). -/
  | nop
  /-- INIT: start a message under `seed` (40_hash_engine.md R71). -/
  | init (seed : Word)
  /-- ABSORB: deliver `bytes`, 1 to 4 of them, first in message order first (R72, R50). -/
  | absorb (bytes : List Byte)
  /-- FINAL: finish the message (R74). -/
  | final
  /-- ENCODE: start the serializer on `RESULT` (41_base32_encoder.md R86). -/
  | encode
  /-- LDLO: load `RESULT[31:0]` (R88). -/
  | ldlo (v : Word)
  /-- LDHI: load `RESULT[63:32]` (R89). -/
  | ldhi (v : Word)
deriving DecidableEq, Repr

end Sys2Proof
end

