-- ==== Sys2Proof/WellFormed.lean ====
section
/-! DEFINITION. Which terms of `Instr` are commands of the CORE: only ABSORB has a bound to check,
1 to 4 bytes (30_encoding.md R50; there is no zero-byte ABSORB). -/

namespace Sys2Proof

/-- The check, command by command. -/
def Instr.wellFormed : Instr → Bool
  | .nop => true
  | .init _ => true
  | .absorb bytes => decide (1 ≤ bytes.length) && decide (bytes.length ≤ 4)
  | .final => true
  | .encode => true
  | .ldlo _ => true
  | .ldhi _ => true

/-- The check as a proposition. -/
abbrev Instr.WellFormed (i : Instr) : Prop := i.wellFormed = true

end Sys2Proof
end

