-- ==== Sys2Proof/Decode.lean ====
section
/-! DEFINITION. Decoding a command word (30_encoding.md R47 to R54), total on every 40-bit word and
refusing the reserved ones by name, and after it the encoder of R55, written from the same table. -/

namespace Sys2Proof

open Sys2Proof.Machine

/-- Why a word is no command of R49. -/
inductive DecodeError where
  /-- The value of `OP` is reserved (R52). The machine answers it with the fault ILL (R99). -/
  | reserved (op : BitVec 8)
deriving DecidableEq, Repr

/-- The case on `OP` of R49, row by row, each with its mask. -/
def decode (w : Command) : Except DecodeError Instr :=
  if opField w = 0x00 then .ok .nop
  else if opField w = 0x01 then .ok (.init (dataField w))
  else if opField w &&& 0xFC = 0x04 then
    .ok (.absorb (absorbBytes (absorbCount (opField w)) (dataField w)))
  else if opField w = 0x08 then .ok .final
  else if opField w = 0x10 then .ok .encode
  else if opField w = 0x20 then .ok (.ldlo (dataField w))
  else if opField w = 0x21 then .ok (.ldhi (dataField w))
  else .error (.reserved (opField w))

/-- A command word from its two fields (R47). -/
def commandWord (op : BitVec 8) (data : Word) : Command := op ++ data

/-- The word the assembler writes for a command: ignored bits and unused high bytes are 0 (R51, R55). -/
def encodeWord : Instr → Command
  | .nop => commandWord 0x00 0
  | .init seed => commandWord 0x01 seed
  | .absorb bytes => commandWord (0x04 + BitVec.ofNat 8 (bytes.length - 1)) (le32 bytes)
  | .final => commandWord 0x08 0
  | .encode => commandWord 0x10 0
  | .ldlo v => commandWord 0x20 v
  | .ldhi v => commandWord 0x21 v

/-- The 40-bit word whose low `nbits` bits are those of `w`, as the opcode table numbers them, and
whose other bits are 0. A command word is one number on a port: it has no byte order (R47, log 18). -/
def tableWord (nbits w : Nat) : Command := BitVec.ofNat 40 (w % 2 ^ nbits)

/-- What the decoder reads from a word numbered as spec/opcode_table.json numbers it. -/
def decodeTableWord (nbits w : Nat) : Option Instr := (decode (tableWord nbits w)).toOption

end Sys2Proof
end

