-- ==== Sys2Proof/Config.lean ====
section
/-! DEFINITION. What an implementation fixes and what the spec leaves open. None of these constants
has a body: nothing can be proved about their values. -/

namespace Sys2Proof

/-- The two kinds of reset R115 leaves open. Both reach the same state. -/
inductive ResetKind where
  | synchronous
  | asynchronous
deriving DecidableEq, Repr, Inhabited

/-- The open parameter RESET_KIND (00_scope.md R7, 70_reset_and_hazards.md R115). No rule depends on
it at the transaction level (assumption log 14). -/
opaque Config.resetKind : ResetKind

/-- How many cycles beyond the first a command word takes. -/
opaque Config.extraCommandCycles : Command → Nat

/-- The open parameter CMD_LATENCY: finite, at least 1, possibly different for each command
(R7, R124, R125). No rule depends on it (assumption log 14). -/
def Config.commandLatency (w : Command) : Nat := Config.extraCommandCycles w + 1

/-- How many cycles beyond the first one character handshake takes. -/
opaque Config.extraCharacterCycles : Nat

/-- The open parameter CHAR_LATENCY: finite and at least 1 (R7, R124). No rule depends on it
(assumption log 14). -/
def Config.characterLatency : Nat := Config.extraCharacterCycles + 1

/-- FREE VALUE: the content of `BUF[0..7]` after the `n`-th reset event of a run, which R31 and R113
leave unspecified (assumption log 5). -/
opaque Config.freeBuf : Nat → Vector Byte 8

/-- FREE VALUE: the `k`-th sample of the `result` port taken while `CBUSY = 1` (R29, log 6). -/
opaque Config.busyResult : Nat → DWord

/-- FREE VALUE: the `k`-th sample of the `status` port taken while `CBUSY = 1` (R29, log 6). -/
opaque Config.busyStatus : Nat → BitVec 16

/-- FREE VALUE: the `k`-th sample of `ch_valid` taken while `CBUSY = 1` (R29, log 6). -/
opaque Config.busyChValid : Nat → Bool

/-- FREE VALUE: the `k`-th sample of `ch_data` taken while `CBUSY = 1` (R29, log 6). -/
opaque Config.busyChData : Nat → Byte

end Sys2Proof
end

