-- ==== Sys2Proof/Machine/State.lean ====
section
/-! DEFINITION. The state of one CORE instance (10_state.md R13, R28, R31), the ports (R27), and the
outcomes of a step. State is plain data. -/

namespace Sys2Proof.Machine

/-- The input ports at one edge (R27). What the host does between two edges is one such entry. -/
structure PortIn where
  /-- `rst` is active (70_reset_and_hazards.md R113). -/
  rst : Bool
  /-- `cmd_valid`: the host presents a command. -/
  cmdValid : Bool
  /-- `cmd_data`: the word it presents. -/
  cmdData : Command
  /-- `ch_ready`: the host takes the presented character (41_base32_encoder.md R94). -/
  chReady : Bool
deriving DecidableEq, Repr

/-- The output ports as the host samples them (R27). -/
structure PortOut where
  /-- `cmd_ready` (30_encoding.md R48). -/
  cmdReady : Bool
  /-- `ch_valid`. -/
  chValid : Bool
  /-- `ch_data`. -/
  chData : Byte
  /-- `result`. -/
  result : DWord
  /-- `status` (R26). -/
  status : BitVec 16
deriving DecidableEq, Repr

/-- The state: R13's record, `CBUSY` (R28), and three fields of the model's own. -/
structure State where
  /-- `LANE_A` (R15). -/
  laneA : Word
  /-- `LANE_B` (R15). -/
  laneB : Word
  /-- `SEED` (R16). -/
  seed : Word
  /-- `LEN` (R17). -/
  len : Word
  /-- `BUF[0..7]` (R18). -/
  buf : Vector Byte 8
  /-- `BCNT` (R18). -/
  bcnt : BitVec 3
  /-- `RESULT` (R19). -/
  result : DWord
  /-- `DONE` (R20). -/
  done : Bool
  /-- `ILL` (R21). -/
  ill : Bool
  /-- `SR` (R22). -/
  sr : DWord
  /-- `CNT` (R23). -/
  cnt : BitVec 4
  /-- `CBUSY` (R28): no step sets it, since a command's effect is atomic (assumption log 6). -/
  cbusy : Bool
  /-- The model's own: the input ports at the coming edges, next first (assumption log 1). -/
  inputs : List PortIn
  /-- The model's own: the character codes handed over so far, oldest first (R112, log 3). -/
  delivered : List Byte
  /-- The model's own: how many free values the run has drawn (assumption log 5). -/
  draws : Nat
deriving DecidableEq, Repr

/-- Faults that stop the machine: there are NONE, so nothing raises one. "The core has no error
states" (60_exceptions.md R100), and a reserved command sets `ILL` and goes on (R99), which is a next
state; `State.Safe` of Sys2Proof/Safety.lean is the spec's reading of `ILL` as a fault. -/
inductive Fault where
deriving DecidableEq, Repr

/-- Refusals. -/
inductive Refusal where
  /-- Raised only by an arm of `exec` whose command has no meaning yet. Safe: the machine stops where
  the hardware goes on. No arm raises it. -/
  | notModelled (mnemonic : String)
deriving DecidableEq, Repr

/-- What a step or a meaning answers. -/
abbrev Answer := Host.Outcome State Fault Refusal

/-- The state right after reset (R31). `BUF` is unspecified there: its eight zero bytes are a DESIGN
CHOICE (assumption log 4; unsafe; no rule reads a byte of `BUF` before it is written, R30). -/
def State.reset : State where
  laneA := 0
  laneB := 0
  seed := 0
  len := 0
  buf := Vector.replicate 8 0
  bcnt := 0
  result := 0
  done := false
  ill := false
  sr := 0
  cnt := 0
  cbusy := false
  inputs := []
  delivered := []
  draws := 0

end Sys2Proof.Machine
end

