-- ==== Sys2Proof/Machine/Ops.lean ====
section
/-! DEFINITION. The named operations on the state. Every meaning and every port event is made of
these; each says which registers it writes, and writes no other. -/

namespace Sys2Proof.Machine

/-- Taking the one fault, ILL: `ILL <- 1`, nothing else changes (60_exceptions.md R99). There is no
trap entry (R104) and no return from it: only reset clears `ILL` (R105). -/
def State.raiseIll (s : State) : State := { s with ill := true }

/-- The reset event (70_reset_and_hazards.md R113). `BUF` becomes unspecified: a free value
(assumption log 5). What was delivered stays delivered, and what the host will drive is its own. -/
def State.applyReset (s : State) : State :=
  { s with
    laneA := 0, laneB := 0, seed := 0, len := 0, bcnt := 0
    result := 0, done := false, ill := false, sr := 0, cnt := 0, cbusy := false
    buf := Config.freeBuf s.draws, draws := s.draws + 1 }

/-- The host's next port entry is consumed, and `rest` follows (assumption log 1). -/
def State.withInputs (s : State) (rest : List PortIn) : State := { s with inputs := rest }

/-- A new message under `seed`: `SEED` and both lanes take it, `LEN` and `BCNT` become 0, and `BUF` keeps
its (now stale) bytes (40_hash_engine.md R71, R77). -/
def State.beginMessage (s : State) (seed : Word) : State :=
  { s with seed := seed, laneA := seed, laneB := seed, len := 0, bcnt := 0 }

/-- `BUF` after `BUF[BCNT] <- b` (R73 step 1). -/
def State.bufWith (s : State) (b : Byte) : Vector Byte 8 := s.buf.set s.bcnt.toNat b s.bcnt.isLt

/-- A byte that does not complete a block: it is stored, `LEN` and `BCNT` advance (R73). -/
def State.bufferByte (s : State) (b : Byte) : State :=
  { s with buf := s.bufWith b, len := s.len + 1, bcnt := s.bcnt + 1 }

/-- A byte that completes a block: it is stored, `LEN` advances, the lanes take the mixed values and
`BCNT` returns to 0 (R73). -/
def State.closeBlock (s : State) (b : Byte) (lanes : Word × Word) : State :=
  { s with buf := s.bufWith b, len := s.len + 1, bcnt := 0, laneA := lanes.1, laneB := lanes.2 }

/-- The tail bytes `BUF[0..BCNT-1]`, and no byte beyond them (R77). -/
def State.tail (s : State) : List Byte := s.buf.toList.take s.bcnt.toNat

/-- The end of a message with the hash `v`: the whole of `RESULT` is written, `DONE <- 1`, and a new
message begins under the seed held (R74 steps 2 to 4; 10_state.md R19, R20). -/
def State.finishMessage (s : State) (v : DWord) : State :=
  { s with result := v, done := true, laneA := s.seed, laneB := s.seed, len := 0, bcnt := 0 }

/-- A write of `RESULT` by a load, with `DONE <- 0` (41_base32_encoder.md R88, R89). -/
def State.setLoaded (s : State) (v : DWord) : State := { s with result := v, done := false }

/-- `SR <- RESULT; CNT <- 13` (R86). -/
def State.startSerializer (s : State) : State := { s with sr := s.result, cnt := 13 }

/-- A character `c` is handed to the host, `SR` is shifted left by 5 with zero fill and `CNT` falls by
one (R87). -/
def State.handOver (s : State) (c : Byte) : State :=
  { s with delivered := s.delivered ++ [c], sr := s.sr <<< 5, cnt := s.cnt - 1 }

/-- The next state of an answer, if it is one. -/
def nextState? : Answer → Option State
  | .next s => some s
  | .fault _ => none
  | .refused _ => none

end Sys2Proof.Machine
end

