-- ==== Sys2Proof/Machine/Base32.lean ====
section
/-! DEFINITION. The Base32Encoder: the alphabet ROM (20_memory.md R37), the encoding function
(41_base32_encoder.md R83, R84), its commands ENCODE, LDLO and LDHI (R86, R88, R89), and the serializer
step EMIT (R87). -/

namespace Sys2Proof.Machine

/-- Entry `i` of the alphabet ROM, an ASCII code: `0x61 + i` up to 25, `0x32 + (i - 26)` above
(R37; the codes are PRESUMED, assumption log 11). -/
def rom (i : BitVec 5) : Byte :=
  if i.toNat ≤ 25 then BitVec.ofNat 8 (0x61 + i.toNat) else BitVec.ofNat 8 (0x32 + (i.toNat - 26))

/-- `enc_index(v, i) = ((v << (5 * i)) mod 2^64) >> 59`, for `i` in 0..12 (R83). -/
def encIndex (v : DWord) (i : Nat) : BitVec 5 := ((v <<< (5 * i)) >>> 59).setWidth 5

/-- `encode(v)`: the codes of its 13 characters, first character first (R84). The loop of DOC0 is
followed, not its gloss (90_conflicts.md C1). -/
def base32 (v : DWord) : List Byte := (List.range 13).map fun i => rom (encIndex v i)

/-- The character the serializer presents, `ROM[SR[63:59]]` (10_state.md R22, R27). -/
def State.nextChar (s : State) : Byte := rom (s.sr.extractLsb' 59 5)

/-- EMIT (R87), the step of one character handshake. It is enabled exactly when `CNT != 0`; the port
logic of Ports.lean takes it only then. -/
def State.emit (s : State) : State := s.handOver s.nextChar

/-- ENCODE (R86), enabled only while `CNT = 0`. While the serializer holds characters the command is
not accepted: no effect, no error, no restart (R90; assumption log 8). -/
def execEncode (s : State) : Answer :=
  if s.cnt = 0 then .next s.startSerializer else .next s

/-- LDLO (R88): `RESULT[31:0] <- DATA; DONE <- 0`. -/
def execLdlo (v : Word) (s : State) : Answer := .next (s.setLoaded (withLowHalf s.result v))

/-- LDHI (R89): `RESULT[63:32] <- DATA; DONE <- 0`. -/
def execLdhi (v : Word) (s : State) : Answer := .next (s.setLoaded (withHighHalf s.result v))

end Sys2Proof.Machine
end

