-- ==== Sys2Proof/Machine/Control.lean ====
section
/-! DEFINITION. The control command NOP (42_control.md R97). -/

namespace Sys2Proof.Machine

/-- NOP (R97): no state change. -/
def execNop (s : State) : Answer := .next s

end Sys2Proof.Machine
end

