-- ==== Sys2Proof/Machine/Mix.lean ====
section
/-! DEFINITION. The HashEngine's functions (40_hash_engine.md R59 to R70; 00_scope.md R9). Addition and
multiplication of `Word`s wrap modulo 2^32 (R59). The constants are taken as DOC0 writes them
(R61, UNVERIFIED, assumption log 12). -/

namespace Sys2Proof.Machine

/-- `C1` of R61. -/
def c1 : Word := 597399067
/-- `C2` of R61. -/
def c2 : Word := 2869860233
/-- `CA` of R61. -/
def ca : Word := 1444728091
/-- `CB` of R61. -/
def cb : Word := 197830471
/-- `F1` of R61. -/
def f1 : Word := 2246822507
/-- `F2` of R61. -/
def f2 : Word := 3266489909

/-- `rotl32(x, r)` for `1 <= r <= 31` (R9). -/
def rotl32 (x : Word) (r : Nat) : Word := (x <<< r) ||| (x >>> (32 - r))

/-- The key mix of the first word of a block or tail (R62). -/
def mixK1 (k : Word) : Word := rotl32 (k * c1) 15 * c2

/-- The key mix of the second word of a block or tail (R63). -/
def mixK2 (k : Word) : Word := rotl32 (k * c2) 17 * c1

/-- The lane A update of a block; it reads the old lane B (R64). -/
def laneAUpdate (a b k1 : Word) : Word := (rotl32 (a ^^^ mixK1 k1) 19 + b) * 5 + ca

/-- The lane B update of a block; `newA` is lane A after its update (R65, 90_conflicts.md C3). -/
def laneBUpdate (newA b k2 : Word) : Word := (rotl32 (b ^^^ mixK2 k2) 13 + newA) * 5 + cb

/-- The block mix of the lanes with the 8 bytes of a block, in message order (R66). -/
def blockMix (lanes : Word × Word) (block : List Byte) : Word × Word :=
  let newA := laneAUpdate lanes.1 lanes.2 (k1Word block)
  (newA, laneBUpdate newA lanes.2 (k2Word block))

/-- The tail mix of the lanes with the 0 to 7 bytes left (R67): a plain XOR fold, with `k1` from 1 byte
on (a 4-byte tail has one: 90_conflicts.md C2) and `k2` from 5 bytes on. -/
def tailMix (lanes : Word × Word) (tail : List Byte) : Word × Word :=
  (if 1 ≤ tail.length then lanes.1 ^^^ mixK1 (k1Word tail) else lanes.1,
   if 5 ≤ tail.length then lanes.2 ^^^ mixK2 (k2Word tail) else lanes.2)

/-- The avalanche step (R68). -/
def fmix (x : Word) : Word :=
  let y := (x ^^^ (x >>> 16)) * f1
  let z := (y ^^^ (y >>> 13)) * f2
  z ^^^ (z >>> 16)

/-- Finalization (R69): `{high, low}` with `low = fa + fb` and `high = fb + low`. -/
def finalize (lanes : Word × Word) (len : Word) : DWord :=
  let a := lanes.1 ^^^ len
  let b := lanes.2 ^^^ len
  let s := a + b
  let t := b + s
  let fa := fmix s
  let fb := fmix t
  let low := fa + fb
  let high := fb + low
  (high.setWidth 64 <<< 32) ||| low.setWidth 64

/-- Block `j` of a message, its bytes `8j` to `8j+7` (20_memory.md R38). -/
def messageBlock (m : List Byte) (j : Nat) : List Byte := (m.drop (8 * j)).take 8

/-- The lanes after the full blocks of `m`, mixed in message order from the seed (R70 steps 1 and 2). -/
def messageLanes (m : List Byte) (seed : Word) : Word × Word :=
  (List.range (m.length / 8)).foldl (fun lanes j => blockMix lanes (messageBlock m j)) (seed, seed)

/-- The last `|m| mod 8` bytes of a message (R38, R70 step 3). -/
def messageTail (m : List Byte) : List Byte := m.drop (8 * (m.length / 8))

/-- The meaning of a complete message (R70). `len` enters modulo 2^32 (R82, assumption log 10). -/
def hash64 (m : List Byte) (seed : Word) : DWord :=
  finalize (tailMix (messageLanes m seed) (messageTail m)) (BitVec.ofNat 32 m.length)

end Sys2Proof.Machine
end

