-- ==== Sys2Proof/Machine/HashEngine.lean ====
section
/-! DEFINITION. The HashEngine's commands: INIT, ABSORB and FINAL (40_hash_engine.md R71 to R74). Each
is the effect of the accepted command (30_encoding.md R48 decides acceptance, in Ports.lean). -/

namespace Sys2Proof.Machine

/-- `absorb_byte(b)` (R73). The block is mixed as its eighth byte arrives, with that byte in place. -/
def absorbByte (s : State) (b : Byte) : State :=
  if s.bcnt = 7 then s.closeBlock b (blockMix (s.laneA, s.laneB) (s.bufWith b).toList)
  else s.bufferByte b

/-- INIT (R71): a new message under DATA; a message in progress is discarded. -/
def execInit (seed : Word) (s : State) : Answer := .next (s.beginMessage seed)

/-- ABSORB (R72): `absorb_byte` for each byte, in order. -/
def execAbsorb (bytes : List Byte) (s : State) : Answer := .next (bytes.foldl absorbByte s)

/-- The hash FINAL writes: the tail mix of the bytes held, then finalization (R74 steps 1 and 2). -/
def State.hashValue (s : State) : DWord := finalize (tailMix (s.laneA, s.laneB) s.tail) s.len

/-- FINAL (R74): the result, `DONE <- 1`, and a new message under the same seed. -/
def execFinal (s : State) : Answer := .next (s.finishMessage s.hashValue)

end Sys2Proof.Machine
end

