-- ==== Sys2Proof/Machine/Dispatch.lean ====
section
/-! DEFINITION. One arm for each command of spec/opcode_table.json: the effect of the command once it
is accepted. -/

namespace Sys2Proof.Machine

def exec (i : Instr) (s : State) : Host.Outcome State Fault Refusal :=
  match i with
  | .nop => Sys2Proof.Machine.execNop s
  | .init seed => Sys2Proof.Machine.execInit seed s
  | .absorb bytes => Sys2Proof.Machine.execAbsorb bytes s
  | .final => Sys2Proof.Machine.execFinal s
  | .encode => Sys2Proof.Machine.execEncode s
  | .ldlo v => Sys2Proof.Machine.execLdlo v s
  | .ldhi v => Sys2Proof.Machine.execLdhi v s

end Sys2Proof.Machine
end

