-- ==== Sys2Proof/Machine/Flags.lean ====
section
/-! DEFINITION. The flags and the status word (10_state.md R20, R21, R25, R26). `DONE` and `ILL` are
registers; `EBUSY` and `STATUS` are computed from the state. No arithmetic writes a flag (R25). -/

namespace Sys2Proof.Machine

/-- `EBUSY`: the serializer still holds characters, `CNT != 0` (R26). -/
def State.ebusy (s : State) : Bool := s.cnt != 0

/-- `STATUS = {5'b0, BCNT[2:0], CNT[3:0], CBUSY, ILL, DONE, (CNT != 0)}` (R26). -/
def State.status (s : State) : BitVec 16 :=
  0#5 ++ s.bcnt ++ s.cnt ++ BitVec.ofBool s.cbusy ++ BitVec.ofBool s.ill ++ BitVec.ofBool s.done
    ++ BitVec.ofBool s.ebusy

end Sys2Proof.Machine
end

