-- ==== Sys2Proof/Machine/Ports.lean ====
section
/-! DEFINITION. The ports (10_state.md R27 to R29): when a command is accepted (30_encoding.md R48) and
a character handed over (41_base32_encoder.md R94), what one edge does (60_exceptions.md R103), and what
a host samples. -/

namespace Sys2Proof.Machine

/-- `cmd_ready = (rst = 0) AND (CBUSY = 0) AND NOT (OP = 0x10 AND CNT != 0)` (R48), for a presented word
`w`. -/
def State.cmdReady (s : State) (rst : Bool) (w : Command) : Bool :=
  !rst && !s.cbusy && !(opField w == 0x10 && s.cnt != 0)

/-- The command presented in `p` is accepted at an edge that finds the CORE in state `s` (R48). -/
def State.accepts (s : State) (p : PortIn) : Bool := p.cmdValid && s.cmdReady p.rst p.cmdData

/-- The port `cmd_ready`. With a command presented it is R48's expression. With none (`cmd_valid = 0`)
there is no presented word for R48's `OP`, so the ENCODE clause drops out whatever `cmd_data` holds, and
`cmd_ready` is 1 once `CBUSY = 0`, as 70_reset_and_hazards.md R119 has a host read it. DEDUCED: R48 does
not say so itself (assumption log 21, unsafe for such a sample). -/
def State.cmdReadyPort (s : State) (p : PortIn) : Bool :=
  if p.cmdValid then s.cmdReady p.rst p.cmdData else !p.rst && !s.cbusy

/-- `ch_valid` with `rst` as given: `CNT != 0` (R27), and 0 while `rst` is active
(70_reset_and_hazards.md R114). -/
def State.chValid (s : State) (rst : Bool) : Bool := !rst && s.cnt != 0

/-- `ch_data` with `rst` as given: the presented character while `ch_valid` is 1, and 0 otherwise (R27). -/
def State.chData (s : State) (rst : Bool) : Byte := if s.chValid rst then s.nextChar else 0

/-- A character is handed over at an edge that finds the CORE in state `s`: `ch_valid` and `ch_ready`
coincide (R27, R94). -/
def State.handsOver (s : State) (p : PortIn) : Bool := s.chValid p.rst && p.chReady

/-- The serializer's part of an edge (R87). -/
def State.serialize (s : State) (p : PortIn) : State := if s.handsOver p then s.emit else s

/-- The accepted command word `w`: its command's effect, or the fault ILL of a reserved one (R52, R99). -/
def runCommand (w : Command) (s : State) : Answer :=
  match decode w with
  | .ok i => exec i s
  | .error _ => .next s.raiseIll

/-- One edge (R103). Reset wins over everything. Otherwise acceptance and handshake are both judged on
the state before the edge, and their effects are combined (assumption log 9). -/
def edge (p : PortIn) (s : State) : Answer :=
  if p.rst then .next s.applyReset
  else if s.accepts p then runCommand p.cmdData (s.serialize p)
  else .next (s.serialize p)

/-- One step of the whole model: the next entry of the host's, if there is one; without it the CORE is
idle and holds its state (R109, assumption log 1). -/
def advance (s : State) : Answer :=
  match s.inputs with
  | [] => .next s
  | p :: rest => edge p (s.withInputs rest)

/-- The output ports, sampled with the input ports at `p` (R27, R29). `k` numbers the host's samples:
while `CBUSY = 1` each but `cmd_ready` is a free draw (assumption log 6). `cmd_ready` with no command
presented follows assumption log 21. Sampling is not a step (42_control.md R98). -/
def State.sample (s : State) (k : Nat) (p : PortIn) : PortOut where
  cmdReady := s.cmdReadyPort p
  chValid := if p.rst then false else if s.cbusy then Config.busyChValid k else s.chValid p.rst
  chData := if p.rst then 0 else if s.cbusy then Config.busyChData k else s.chData p.rst
  result := if s.cbusy then Config.busyResult k else s.result
  status := if s.cbusy then Config.busyStatus k else s.status

/-- The input ports while nothing happens. -/
def PortIn.idle : PortIn := { rst := false, cmdValid := false, cmdData := 0, chReady := false }

/-- The input ports while the host presents the command word `w` and does nothing else. -/
def PortIn.present (w : Command) : PortIn :=
  { rst := false, cmdValid := true, cmdData := w, chReady := false }

/-- The input ports while the host takes a character and does nothing else. -/
def PortIn.take : PortIn := { rst := false, cmdValid := false, cmdData := 0, chReady := true }

/-- The input ports while `rst` is active and nothing else happens. -/
def PortIn.reset : PortIn := { rst := true, cmdValid := false, cmdData := 0, chReady := false }

end Sys2Proof.Machine
end

