-- ==== Sys2Proof/Machine/Step.lean ====
section
/-! DEFINITION. The step of the machine, and how a command word reaches it. The CORE fetches nothing
(10_state.md R24): the host presents commands, so a word stands where the next step takes it by being
the next entry of `inputs` (assumption log 2). -/

namespace Sys2Proof.Machine

/-- One step (00_scope.md R4). -/
def step (s : State) : Host.Outcome State Fault Refusal := advance s

/-- `s` with the host presenting that word at the very next step. -/
def State.withFetchWord (s : State) (nbits w : Nat) : State :=
  s.withInputs (PortIn.present (tableWord nbits w) :: s.inputs)

end Sys2Proof.Machine
end

