-- ==== Sys2Proof/Machine/Assembler.lean ====
section
/-! DEFINITION. The assembler of 30_encoding.md: the text of a command and of a word (R55), the
pseudo-instructions HASH, LDRES and UNIQ (R56 to R58, the CORE's part of UNIQ), and the effect of a list
of commands. -/

namespace Sys2Proof.Machine

/-- The digit of `n` in base 16, for `n` below 16. -/
def hexDigit (n : Nat) : Char :=
  if n < 10 then Char.ofNat (0x30 + n) else Char.ofNat (0x41 + (n - 10))

/-- The last `k` hexadecimal digits of `n`, most significant first. -/
def hexDigits : Nat → Nat → List Char
  | 0, _ => []
  | k + 1, n => hexDigits k (n / 16) ++ [hexDigit (n % 16)]

/-- A literal of `k` hexadecimal digits (00_scope.md R8). -/
def hexLiteral (k n : Nat) : String := "0x" ++ String.ofList (hexDigits k n)

/-- The text of a command (R55). -/
def instrText : Instr → String
  | .nop => "NOP"
  | .init seed => "INIT " ++ hexLiteral 8 seed.toNat
  | .absorb bytes => "ABSORB " ++ String.intercalate ", " (bytes.map fun b => hexLiteral 2 b.toNat)
  | .final => "FINAL"
  | .encode => "ENCODE"
  | .ldlo v => "LDLO " ++ hexLiteral 8 v.toNat
  | .ldhi v => "LDHI " ++ hexLiteral 8 v.toNat

/-- A word in hexadecimal, ten digits, `OP` first (R55). -/
def wordText (w : Command) : String := hexLiteral 10 w.toNat

/-- The bytes of a message 4 at a time, the last chunk with the 1 to 4 that remain (R56 step 2). -/
def chunksOfFour : List Byte → List (List Byte)
  | b0 :: b1 :: b2 :: b3 :: rest => [b0, b1, b2, b3] :: chunksOfFour rest
  | [] => []
  | bytes => [bytes]

/-- `HASH <seed>, <bytes>` (R56). -/
def hashCommands (seed : Word) (bytes : List Byte) : List Instr :=
  .init seed :: ((chunksOfFour bytes).map .absorb ++ [.final])

/-- `LDRES <u64>` (R57). -/
def ldresCommands (v : DWord) : List Instr := [.ldlo (lowHalf v), .ldhi (highHalf v)]

/-- What the host does at the ports for `UNIQ`, once it has joined, checked and converted the texts to
`bytes` (R58; those duties are outside the CORE, 00_scope.md R6, assumption log 19). -/
def uniqEntries (bytes : List Byte) : List PortIn :=
  (hashCommands 0 bytes ++ [Instr.encode]).map (fun i => PortIn.present (encodeWord i))
    ++ List.replicate 13 PortIn.take

/-- The effect of accepted commands, one after the other (20_memory.md R42). -/
def execList : List Instr → State → Answer
  | [], s => .next s
  | i :: is, s =>
    match exec i s with
    | .next t => execList is t
    | .fault r => .fault r
    | .refused r => .refused r

end Sys2Proof.Machine
end

