-- ==== Sys2Proof/Safety.lean ====
section
/-! DEFINITION. The terms claims are stated in: the fault reading of `ILL` (60_exceptions.md R99), the
invariants of 10_state.md R32, what message a state holds (40_hash_engine.md R70, R73), which states a
host cannot tell apart (R30), and the end of a run (R112). -/

namespace Sys2Proof.Machine

/-- "A state with `ILL = 1` is a fault" (R99): a claim about a run takes this of its last state. -/
abbrev State.Safe (s : State) : Prop := s.ill = false

/-- The invariants of R32. Item 1 (`BCNT <= 7`) is the type of `bcnt`. Items 4 and 5 are one clause:
`SR` is some value shifted left by `5 * (13 - CNT)`, which is 0 when `CNT = 0`. -/
structure State.Inv (s : State) : Prop where
  /-- Item 2. -/
  cnt_le : s.cnt.toNat ≤ 13
  /-- Item 3. -/
  not_busy : s.cbusy = false
  /-- Item 4. -/
  sr_drained : s.cnt = 0 → s.sr = 0
  /-- Item 5, for some `V`. -/
  sr_shifted : ∃ v : DWord, s.sr = v <<< (5 * (13 - s.cnt.toNat))
  /-- Item 6. -/
  len_mod : s.len.toNat % 8 = s.bcnt.toNat

/-- The HashEngine of `s` holds exactly the message `m` under its seed: the full blocks are mixed, the
tail bytes are buffered, `LEN` is the length modulo 2^32 (R70, R73). -/
structure State.HoldsMessage (m : List Byte) (s : State) : Prop where
  lanes : (s.laneA, s.laneB) = messageLanes m s.seed
  tail : s.tail = messageTail m
  bcnt : s.bcnt.toNat = m.length % 8
  len : s.len = BitVec.ofNat 32 m.length

/-- `s` and `t` differ at most in the bytes `BUF[i]` with `i >= BCNT` (R30). -/
abbrev State.SameButStale (s t : State) : Prop :=
  t = { s with buf := t.buf } ∧ t.buf.toList.take s.bcnt.toNat = s.buf.toList.take s.bcnt.toNat

/-- The command a port entry presents, if it presents one that R49 defines. -/
def PortIn.command? (p : PortIn) : Option Instr :=
  if p.cmdValid then (decode p.cmdData).toOption else none

/-- The entry presents a reserved command (R52). -/
def PortIn.presentsReserved (p : PortIn) : Bool :=
  p.cmdValid && (decode p.cmdData).toOption.isNone

/-- The message bytes an entry presents: those of its ABSORB, if it presents one (20_memory.md R34). -/
def PortIn.messageBytes (p : PortIn) : List Byte :=
  match p.command? with
  | some (.absorb bytes) => bytes
  | _ => []

/-- The entry is no reset and presents neither INIT nor FINAL: what R75 lets stand inside a message. -/
def PortIn.insideMessage (p : PortIn) : Bool :=
  !p.rst &&
    match p.command? with
    | some (.init _) => false
    | some .final => false
    | _ => true

/-- `k` steps. -/
def runSteps : Nat → State → Answer
  | 0, s => .next s
  | k + 1, s =>
    match step s with
    | .next t => runSteps k t
    | .fault r => .fault r
    | .refused r => .refused r

/-- The command word the next step accepts, if it accepts one (30_encoding.md R48). -/
def State.acceptedNow (s : State) : List Command :=
  match s.inputs with
  | [] => []
  | p :: _ => if s.accepts p then [p.cmdData] else []

/-- The command words accepted in `k` steps, in order (20_memory.md R42). -/
def acceptedIn : Nat → State → List Command
  | 0, _ => []
  | k + 1, s =>
    match step s with
    | .next t => s.acceptedNow ++ acceptedIn k t
    | .fault _ => s.acceptedNow
    | .refused _ => s.acceptedNow

/-- What is observed at the end of a run (R112). -/
structure Observation where
  result : DWord
  status : BitVec 16
  /-- The characters delivered since the run began. -/
  delivered : List Byte
deriving DecidableEq, Repr

/-- The observation, at the state `s`, of a run that began at `start`. -/
def State.observeSince (start s : State) : Observation :=
  { result := s.result, status := s.status
    delivered := s.delivered.drop start.delivered.length }

/-- After `k` steps from `s` every command of `cmds` has been accepted, `CBUSY = 0` and `CNT = 0`, the
three conditions of R112. "Has been accepted" is read as: the accepted words are exactly `cmds`, in order,
so a run in which a further command is accepted before `CNT = 0` never ends. DESIGN CHOICE: R112 does not
say what a further command does to the run (assumption log 23, unsafe for such a run). A reset event among the steps is counted as part of the run: the acceptances
before and after it are one sequence, and the `CNT = 0` it writes meets the third condition although
characters may be untaken. DESIGN CHOICE: R112 says nothing of a run interrupted by reset (assumption log
22, unsafe for such a run). -/
def endedAt (cmds : List Command) (s : State) (k : Nat) : Bool :=
  match runSteps k s with
  | .next t => (acceptedIn k s == cmds) && !t.cbusy && t.cnt == 0
  | .fault _ => false
  | .refused _ => false

/-- The run of `cmds` from `s` ends after `k` steps, and not before (R112; for a run interrupted by reset,
assumption log 22; with a further command accepted, log 23). -/
def EndsAfter (cmds : List Command) (s : State) (k : Nat) : Prop :=
  endedAt cmds s k = true ∧ ∀ j, j < k → endedAt cmds s j = false

end Sys2Proof.Machine
end

