-- ==== Sys2Proof/Certificates/Slice0/Obligations.lean ====
section
/-! DEFINITION. The statements for the provers, each from the rules of spec/ its docstring names.
Grouped as the spec's files are: encoding, ports and steps, state, HashEngine, Base32Encoder. The fields
`inputs` and `delivered` are the model's own (assumption log 1 and 3): a clause about them says what the
host drives next and what it was handed, and rests on that representation. -/

open Sys2Proof Sys2Proof.Machine

/-! ### Encoding -/

/-- R47, R49, R50, R55: no bit of a well-formed command is dropped by its encoding. -/
def Obligations.DecodeOfEncode : Prop :=
  ∀ i : Instr, i.WellFormed → decode (encodeWord i) = .ok i

/-- R49, R51, R55: what is decoded is well formed, and encoding it again gives the word back but for the
ignored bits. -/
def Obligations.EncodeOfDecode : Prop :=
  ∀ (w : Command) (i : Instr), decode w = .ok i →
    i.WellFormed ∧ opField (encodeWord i) = opField w ∧
    match i with
    | .nop | .final | .encode => True
    | .init _ | .ldlo _ | .ldhi _ => encodeWord i = w
    | .absorb bytes => ∀ k, k < 8 * bytes.length → (encodeWord i).getLsbD k = w.getLsbD k

/-- R49 and R50: the opcode map row by row, every other value of `OP` reserved, and the counts 10 and
246. -/
def Obligations.DecodeFollowsOpcodeMap : Prop :=
  (∀ data : Word,
    decode (0x00#8 ++ data) = .ok .nop ∧
    decode (0x01#8 ++ data) = .ok (.init data) ∧
    decode (0x04#8 ++ data) = .ok (.absorb [data.extractLsb' 0 8]) ∧
    decode (0x05#8 ++ data) = .ok (.absorb [data.extractLsb' 0 8, data.extractLsb' 8 8]) ∧
    decode (0x06#8 ++ data) =
      .ok (.absorb [data.extractLsb' 0 8, data.extractLsb' 8 8, data.extractLsb' 16 8]) ∧
    decode (0x07#8 ++ data) = .ok (.absorb [data.extractLsb' 0 8, data.extractLsb' 8 8,
      data.extractLsb' 16 8, data.extractLsb' 24 8]) ∧
    decode (0x08#8 ++ data) = .ok .final ∧
    decode (0x10#8 ++ data) = .ok .encode ∧
    decode (0x20#8 ++ data) = .ok (.ldlo data) ∧
    decode (0x21#8 ++ data) = .ok (.ldhi data)) ∧
  (∀ (op : BitVec 8) (data : Word),
    op ∉ [0x00, 0x01, 0x04, 0x05, 0x06, 0x07, 0x08, 0x10, 0x20, 0x21] →
    decode (op ++ data) = .error (.reserved op)) ∧
  ((List.range 256).filter fun op =>
    (decode (BitVec.ofNat 8 op ++ 0#32)).toOption.isSome).length = 10 ∧
  ((List.range 256).filter fun op =>
    (decode (BitVec.ofNat 8 op ++ 0#32)).toOption.isNone).length = 246

/-- R51: words that differ only in ignored bits decode to the same command, and the assembler writes
ignored bits as 0. -/
def Obligations.IgnoredBitsHaveNoEffect : Prop :=
  (∀ w w' : Command, opField w = opField w' →
    (opField w ∈ [0x00, 0x08, 0x10] ∨
      (opField w &&& 0xFC = 0x04 ∧
        ∀ k, k < 8 * ((opField w &&& 0x03).toNat + 1) → w.getLsbD k = w'.getLsbD k)) →
    decode w = decode w') ∧
  dataField (encodeWord .nop) = 0 ∧ dataField (encodeWord .final) = 0 ∧
  dataField (encodeWord .encode) = 0 ∧
  ∀ bytes : List Byte, (Instr.absorb bytes).WellFormed →
    ∀ k, 8 * bytes.length ≤ k → k < 32 → (encodeWord (.absorb bytes)).getLsbD k = false

/-- The decoding corners of 95_test_vectors.md section 2.9 and one word of each other row. -/
def Obligations.DecodeSampleWords : Prop :=
  decodeTableWord 40 0x00DEADBEEF = some .nop ∧
  decodeTableWord 40 0x0112345678 = some (.init 0x12345678) ∧
  decodeTableWord 40 0x0400000066 = some (.absorb [0x66]) ∧
  decodeTableWord 40 0x0500006F66 = some (.absorb [0x66, 0x6F]) ∧
  decodeTableWord 40 0x06006F6F66 = some (.absorb [0x66, 0x6F, 0x6F]) ∧
  decodeTableWord 40 0x07646F6F66 = some (.absorb [0x66, 0x6F, 0x6F, 0x64]) ∧
  decodeTableWord 40 0x0800000000 = some .final ∧
  decodeTableWord 40 0x1000000000 = some .encode ∧
  decodeTableWord 40 0x2000000001 = some (.ldlo 1) ∧
  decodeTableWord 40 0x2180000000 = some (.ldhi 0x80000000) ∧
  decodeTableWord 40 0x0300000000 = none ∧ decodeTableWord 40 0x0900000000 = none ∧
  decodeTableWord 40 0x1100000000 = none ∧ decodeTableWord 40 0x2200000000 = none ∧
  decodeTableWord 40 0x8000000000 = none

/-! ### Ports and steps -/

/-- R48, R87, R103: when the next entry presents a defined command under the condition of R48, the step
is `exec` of that command, on the state after the entry is consumed and the same edge's character
handshake (if there is one) has happened. -/
def Obligations.StepRunsAcceptedCommand : Prop :=
  ∀ (s : State) (p : PortIn) (rest : List PortIn) (i : Instr),
    s.inputs = p :: rest → p.rst = false → p.cmdValid = true → s.cbusy = false →
    ¬(opField p.cmdData = 0x10 ∧ s.cnt ≠ 0) → decode p.cmdData = .ok i →
    step s = exec i
      (if p.chReady = true ∧ s.cnt ≠ 0 then
        { s with
          inputs := rest, delivered := s.delivered ++ [rom (s.sr.extractLsb' 59 5)]
          sr := s.sr <<< 5, cnt := s.cnt - 1 }
      else { s with inputs := rest })

/-- R48: `cmd_ready` is the expression of the rule, a command that is not accepted leaves exactly what
the same entry without a command leaves, and an accepted one is run. -/
def Obligations.AcceptanceIsCmdReady : Prop :=
  (∀ (s : State) (rst : Bool) (w : Command),
    s.cmdReady rst w = true ↔ rst = false ∧ s.cbusy = false ∧ ¬(opField w = 0x10 ∧ s.cnt ≠ 0)) ∧
  (∀ (s : State) (p : PortIn) (rest : List PortIn), s.cmdReady p.rst p.cmdData = false →
    step { s with inputs := p :: rest } =
      step { s with inputs := { p with cmdValid := false } :: rest }) ∧
  ∀ (s : State) (p : PortIn) (rest : List PortIn), p.chReady = false →
    p.cmdValid = true → s.cmdReady p.rst p.cmdData = true →
    (∀ i, decode p.cmdData = .ok i →
      step { s with inputs := p :: rest } = exec i { s with inputs := rest }) ∧
    ∀ e, decode p.cmdData = .error e →
      step { s with inputs := p :: rest } = .next { s with inputs := rest, ill := true }

/-- R52, R99, R105: a reserved command is accepted whatever the serializer does, its only effect is
`ILL <- 1`, and a second one changes nothing more. -/
def Obligations.ReservedCommandSetsIll : Prop :=
  ∀ (s : State) (op : BitVec 8) (data : Word) (rest : List PortIn),
    (0x02 ≤ op.toNat ∧ op.toNat ≤ 0x03) ∨ (0x09 ≤ op.toNat ∧ op.toNat ≤ 0x0F) ∨
      (0x11 ≤ op.toNat ∧ op.toNat ≤ 0x1F) ∨ (0x22 ≤ op.toNat ∧ op.toNat ≤ 0xFF) →
    s.cbusy = false →
    s.cmdReady false (op ++ data) = true ∧
    step { s with inputs := PortIn.present (op ++ data) :: rest } =
      .next { s with inputs := rest, ill := true }

/-- R113 and R114: reset is enabled in every state, whatever else the entry drives; every register but
`BUF` (unspecified) takes its reset value; while `rst` is active nothing is accepted or handed over. -/
def Obligations.ResetWinsAndClears : Prop :=
  (∀ (s : State) (p : PortIn) (rest : List PortIn), s.inputs = p :: rest → p.rst = true →
    ∃ t, step s = .next t ∧
      t.laneA = 0 ∧ t.laneB = 0 ∧ t.seed = 0 ∧ t.len = 0 ∧ t.bcnt = 0 ∧ t.result = 0 ∧
      t.done = false ∧ t.ill = false ∧ t.sr = 0 ∧ t.cnt = 0 ∧ t.cbusy = false ∧
      t.inputs = rest ∧ t.delivered = s.delivered) ∧
  ∀ (s : State) (k : Nat) (p : PortIn), p.rst = true →
    (s.sample k p).cmdReady = false ∧ (s.sample k p).chValid = false

/-- R109, with the model's reading of it (log 1): when the host drives nothing, the state is held. -/
def Obligations.IdleHoldsState : Prop :=
  ∀ s : State,
    (s.inputs = [] → step s = .next s) ∧
    ∀ (rest : List PortIn) (p : PortIn), s.inputs = p :: rest → p.rst = false →
      p.cmdValid = false → p.chReady = false → step s = .next { s with inputs := rest }

/-- R42 and R103: a command other than ENCODE and a character handshake give the same state in either
order and on one edge. -/
def Obligations.InterleavingsAgree : Prop :=
  ∀ (s : State) (w : Command) (rest : List PortIn), opField w ≠ 0x10 → s.cbusy = false →
    runSteps 2 { s with inputs := PortIn.present w :: PortIn.take :: rest } =
      runSteps 2 { s with inputs := PortIn.take :: PortIn.present w :: rest } ∧
    step { s with inputs := { PortIn.present w with chReady := true } :: rest } =
      runSteps 2 { s with inputs := PortIn.take :: PortIn.present w :: rest }

/-- R103 item 2, its exception: an edge whose handshake takes the last character does not accept an
ENCODE presented at it. -/
def Obligations.LastCharacterEdgeRefusesEncode : Prop :=
  ∀ (s : State) (data : Word) (rest : List PortIn), s.cnt = 1 →
    step { s with inputs := { PortIn.present (0x10#8 ++ data) with chReady := true } :: rest } =
      .next { s with
        inputs := rest, delivered := s.delivered ++ [rom (s.sr.extractLsb' 59 5)]
        sr := s.sr <<< 5, cnt := 0 }

/-- R27 and R29: the output ports are functions of the state while `CBUSY = 0`, `cmd_ready` R48's
expression for a presented command among them; R28: no command is ready while `CBUSY = 1`; R27: a command
is accepted, and a character handed over, when valid and ready coincide at the port. That `cmd_ready`
is 1 when no command is presented (`cmd_valid = 0`), whatever `cmd_data` and `CNT` hold, is R119's sentence
read by the model (DEDUCED, assumption log 21). -/
def Obligations.PortsShowTheState : Prop :=
  (∀ (s : State) (k : Nat) (p : PortIn), s.cbusy = false → p.rst = false →
    (s.sample k p).result = s.result ∧ (s.sample k p).status = s.status ∧
    ((s.sample k p).chValid = true ↔ s.cnt ≠ 0) ∧
    (s.cnt ≠ 0 → (s.sample k p).chData = rom (s.sr.extractLsb' 59 5)) ∧
    (s.cnt = 0 → (s.sample k p).chData = 0) ∧
    ((s.sample k p).cmdReady = true ↔
      ¬(p.cmdValid = true ∧ opField p.cmdData = 0x10 ∧ s.cnt ≠ 0))) ∧
  (∀ (s : State) (k : Nat) (p : PortIn), s.cbusy = true → (s.sample k p).cmdReady = false) ∧
  (∀ (s : State) (k : Nat) (p : PortIn), s.accepts p = (p.cmdValid && (s.sample k p).cmdReady)) ∧
  ∀ (s : State) (k : Nat) (p : PortIn), s.cbusy = false →
    s.handsOver p = ((s.sample k p).chValid && p.chReady)

/-! ### State -/

/-- R31: the state after reset and what the ports show of it; nothing is said of `BUF`. -/
def Obligations.ResetValues : Prop :=
  let s := State.reset
  s.laneA = 0 ∧ s.laneB = 0 ∧ s.seed = 0 ∧ s.len = 0 ∧ s.bcnt = 0 ∧ s.result = 0 ∧
  s.done = false ∧ s.ill = false ∧ s.sr = 0 ∧ s.cnt = 0 ∧ s.cbusy = false ∧ s.status = 0x0000 ∧
  ∀ (k : Nat) (p : PortIn), p.rst = false →
    s.sample k p =
      { cmdReady := true, chValid := false, chData := 0, result := 0, status := 0x0000 }

/-- R26: every field of `STATUS`, and the bits that read 0. -/
def Obligations.StatusFields : Prop :=
  ∀ s : State,
    (s.status.getLsbD 0 = true ↔ s.cnt ≠ 0) ∧ s.status.getLsbD 1 = s.done ∧
    s.status.getLsbD 2 = s.ill ∧ s.status.getLsbD 3 = s.cbusy ∧
    s.status.extractLsb' 4 4 = s.cnt ∧ s.status.extractLsb' 8 3 = s.bcnt ∧
    s.status.extractLsb' 11 5 = 0

/-- R32, R31: the invariants hold after reset. -/
def Obligations.ResetMeetsInvariants : Prop := State.reset.Inv

/-- R32: every step from a state that meets the invariants gives one that meets them. -/
def Obligations.StepKeepsInvariants : Prop :=
  ∀ s t : State, s.Inv → step s = .next t → t.Inv

/-- R30: two states that differ only in `BUF[i]` for `i >= BCNT` show the same on every port, now and
after every step. -/
def Obligations.StaleBufferNeverSeen : Prop :=
  ∀ s t : State, s.SameButStale t →
    (∀ (k : Nat) (p : PortIn), s.sample k p = t.sample k p) ∧
    ∃ s' t', step s = .next s' ∧ step t = .next t' ∧ s'.SameButStale t'

/-- R21: a reserved command writes `ILL`, only reset clears it. -/
def Obligations.IllIsSticky : Prop :=
  ∀ (s t : State) (p : PortIn) (rest : List PortIn), s.inputs = p :: rest → step s = .next t →
    (t.ill = true ↔ p.rst = false ∧
      (s.ill = true ∨ (s.cbusy = false ∧ p.cmdValid = true ∧
        opField p.cmdData ∉ [0x00, 0x01, 0x04, 0x05, 0x06, 0x07, 0x08, 0x10, 0x20, 0x21])))

/-- R20: FINAL sets `DONE`, LDLO, LDHI and reset clear it, nothing else writes it. -/
def Obligations.DoneFollowsLastWrite : Prop :=
  ∀ (s t : State) (p : PortIn) (rest : List PortIn), s.inputs = p :: rest → s.cbusy = false →
    step s = .next t →
    t.done =
      if p.rst = true then false
      else if p.cmdValid = true ∧ opField p.cmdData = 0x08 then true
      else if p.cmdValid = true ∧ (opField p.cmdData = 0x20 ∨ opField p.cmdData = 0x21) then false
      else s.done

/-- R19: the four writers of `RESULT`, each with what it writes, and no other. -/
def Obligations.ResultWriters : Prop :=
  ∀ (s t : State) (p : PortIn) (rest : List PortIn), s.inputs = p :: rest → s.cbusy = false →
    step s = .next t →
    t.result =
      if p.rst = true then 0
      else if p.cmdValid = true ∧ opField p.cmdData = 0x08 then
        finalize (tailMix (s.laneA, s.laneB) (s.buf.toList.take s.bcnt.toNat)) s.len
      else if p.cmdValid = true ∧ opField p.cmdData = 0x20 then
        s.result.extractLsb' 32 32 ++ p.cmdData.extractLsb' 0 32
      else if p.cmdValid = true ∧ opField p.cmdData = 0x21 then
        p.cmdData.extractLsb' 0 32 ++ s.result.extractLsb' 0 32
      else s.result

/-- R14, R42, R99 (second clause of R103 item 3): what each defined command leaves unchanged
(for an ABSORB term of 0 or more than 4 bytes, which no word decodes to: assumption log 17). -/
def Obligations.CommandFrame : Prop :=
  ∀ (i : Instr) (s t : State), exec i s = .next t →
    t.ill = s.ill ∧ t.cbusy = s.cbusy ∧ t.inputs = s.inputs ∧ t.delivered = s.delivered ∧
    t.draws = s.draws ∧
    ((∀ v, i ≠ .init v) → t.seed = s.seed) ∧
    ((∀ bytes, i ≠ .absorb bytes) → t.buf = s.buf) ∧
    ((∀ v, i ≠ .init v) → (∀ bytes, i ≠ .absorb bytes) → i ≠ .final →
      t.laneA = s.laneA ∧ t.laneB = s.laneB ∧ t.len = s.len ∧ t.bcnt = s.bcnt) ∧
    (i ≠ .final → (∀ v, i ≠ .ldlo v) → (∀ v, i ≠ .ldhi v) →
      t.result = s.result ∧ t.done = s.done) ∧
    (i ≠ .encode → t.sr = s.sr ∧ t.cnt = s.cnt)

/-- R42: a command other than ENCODE neither writes nor reads `SR` and `CNT` (ill-formed
ABSORB terms: assumption log 17). -/
def Obligations.CommandsIgnoreSerializer : Prop :=
  ∀ (i : Instr) (s : State) (x : DWord) (y : BitVec 4), i ≠ .encode →
    ∃ t, exec i s = .next t ∧ t.sr = s.sr ∧ t.cnt = s.cnt ∧
      exec i { s with sr := x, cnt := y } = .next { t with sr := x, cnt := y }

/-! ### Control -/

/-- R97: NOP, with any DATA, changes nothing, `ILL` included; it is accepted whatever the serializer
holds; and every other command changes some state. -/
def Obligations.NopChangesNothing : Prop :=
  (∀ data : Word, decode (0x00#8 ++ data) = .ok .nop) ∧
  (∀ s : State, exec .nop s = .next s) ∧
  (∀ (s : State) (data : Word) (rest : List PortIn),
    step { s with inputs := PortIn.present (0x00#8 ++ data) :: rest } = .next { s with inputs := rest }) ∧
  (∀ (s : State) (p : PortIn) (data : Word), s.cbusy = false → p.rst = false → p.cmdValid = true →
    p.cmdData = 0x00#8 ++ data → s.cmdReady p.rst p.cmdData = true ∧ s.accepts p = true) ∧
  ∀ i : Instr, i.WellFormed → i ≠ .nop → ∃ s t : State, exec i s = .next t ∧ t ≠ s

/-! ### HashEngine -/

/-- R9: `rotl32` is circular rotation within 32 bits. -/
def Obligations.RotationIsCircular : Prop :=
  ∀ (x : Word) (r : Nat), 1 ≤ r → r ≤ 31 → rotl32 x r = x.rotateLeft r

/-- R62, R63 and R68: the key mixes and the avalanche step, with DOC0's decimal constants and circular
rotation, their fixed point 0, that each is a bijection, and the rules' examples. -/
def Obligations.MixersAreTheRulesBijections : Prop :=
  (∀ k : Word, mixK1 k = (k * 597399067#32).rotateLeft 15 * 2869860233#32) ∧
  (∀ k : Word, mixK2 k = (k * 2869860233#32).rotateLeft 17 * 597399067#32) ∧
  (∀ x : Word, fmix x =
    let y := (x ^^^ (x >>> 16)) * 2246822507#32
    let z := (y ^^^ (y >>> 13)) * 3266489909#32
    z ^^^ (z >>> 16)) ∧
  mixK1 0 = 0 ∧ mixK2 0 = 0 ∧ fmix 0 = 0 ∧
  Function.Bijective mixK1 ∧ Function.Bijective mixK2 ∧ Function.Bijective fmix ∧
  mixK1 0x006F6F66 = 0x9E74BB04 ∧ mixK2 0x68676665 = 0x71AE37B6 ∧ fmix 1 = 0x514E28B7

/-- R64, R65 and R66: the block mix of eight bytes, written with the words as concatenations of bytes,
lane A from the old lane B and lane B from the new lane A, and the rules' examples. -/
def Obligations.BlockMixRule : Prop :=
  (∀ (a b : Word) (b0 b1 b2 b3 b4 b5 b6 b7 : Byte),
    blockMix (a, b) [b0, b1, b2, b3, b4, b5, b6, b7] =
      let k1 : Word := b3 ++ b2 ++ b1 ++ b0
      let k2 : Word := b7 ++ b6 ++ b5 ++ b4
      let newA := ((a ^^^ mixK1 k1).rotateLeft 19 + b) * 5 + 1444728091
      let newB := ((b ^^^ mixK2 k2).rotateLeft 13 + newA) * 5 + 197830471
      (newA, newB)) ∧
  blockMix (0, 0) [0x61, 0x62, 0x63, 0x64, 0x65, 0x66, 0x67, 0x68] = (0x2F76AA7C, 0xDBEE02BC) ∧
  blockMix (0, 0) [0, 0, 0, 0, 0, 0, 0, 0] = (0x561CCD1B, 0xBA5AA8CE)

/-- R67: the tail mix of each length 0 to 7, with zero in the absent high bytes, and the rule's
examples. -/
def Obligations.TailMixRule : Prop :=
  (∀ (a b : Word) (t0 t1 t2 t3 t4 t5 t6 : Byte),
    tailMix (a, b) [] = (a, b) ∧
    tailMix (a, b) [t0] = (a ^^^ mixK1 (0#24 ++ t0), b) ∧
    tailMix (a, b) [t0, t1] = (a ^^^ mixK1 (0#16 ++ t1 ++ t0), b) ∧
    tailMix (a, b) [t0, t1, t2] = (a ^^^ mixK1 (0#8 ++ t2 ++ t1 ++ t0), b) ∧
    tailMix (a, b) [t0, t1, t2, t3] = (a ^^^ mixK1 (t3 ++ t2 ++ t1 ++ t0), b) ∧
    tailMix (a, b) [t0, t1, t2, t3, t4] =
      (a ^^^ mixK1 (t3 ++ t2 ++ t1 ++ t0), b ^^^ mixK2 (0#24 ++ t4)) ∧
    tailMix (a, b) [t0, t1, t2, t3, t4, t5] =
      (a ^^^ mixK1 (t3 ++ t2 ++ t1 ++ t0), b ^^^ mixK2 (0#16 ++ t5 ++ t4)) ∧
    tailMix (a, b) [t0, t1, t2, t3, t4, t5, t6] =
      (a ^^^ mixK1 (t3 ++ t2 ++ t1 ++ t0), b ^^^ mixK2 (0#8 ++ t6 ++ t5 ++ t4))) ∧
  tailMix (0, 0) [1, 2, 3, 4, 5] = (0xFFF4C2EC, 0x79A45F4B) ∧
  tailMix (0, 0) [1, 2, 3, 4] = (0xFFF4C2EC, 0)

/-- R69: finalization, its result the concatenation of `high` and `low`, and the rule's example. -/
def Obligations.FinalizeRule : Prop :=
  (∀ a b len : Word, finalize (a, b) len =
    let s := (a ^^^ len) + (b ^^^ len)
    let t := (b ^^^ len) + s
    let low := fmix s + fmix t
    let high := fmix t + low
    high ++ low) ∧
  finalize (0x9E74BB04, 0) 3 = 0xB1461F1FEE189C88

/-- R71: INIT. Everything not named keeps its value: `BUF`, `RESULT`, `DONE`, `ILL`, `SR` and `CNT`
among it. -/
def Obligations.InitStartsMessage : Prop :=
  (∀ data : Word, decode (0x01#8 ++ data) = .ok (.init data)) ∧
  (∀ (data : Word) (s : State), exec (.init data) s =
    .next { s with seed := data, laneA := data, laneB := data, len := 0, bcnt := 0 }) ∧
  ∃ t, execList [.init 1, .final] State.reset = .next t ∧ t.result = 0x3CD62B54B6E5772D

/-- R73: one absorbed byte. It takes the place `BCNT` of the buffer; as the eighth it completes a block
of the seven bytes before it and itself. -/
def Obligations.AbsorbByteRule : Prop :=
  ∀ (b : Byte) (s : State), exec (.absorb [b]) s =
    .next
      (if s.bcnt = 7 then
        { s with
          buf := s.buf.set 7 b, len := s.len + 1, bcnt := 0
          laneA := (blockMix (s.laneA, s.laneB) (s.buf.toList.take 7 ++ [b])).1
          laneB := (blockMix (s.laneA, s.laneB) (s.buf.toList.take 7 ++ [b])).2 }
      else
        { s with
          buf := s.buf.set s.bcnt.toNat b s.bcnt.isLt, len := s.len + 1, bcnt := s.bcnt + 1 })

/-- R72 and R73 for a whole command: 1 to 4 bytes fill the buffer from `BCNT` on, complete at most one
block, and leave every other register and every other byte of `BUF` alone. -/
def Obligations.AbsorbFillsBuffer : Prop :=
  ∀ (bytes : List Byte) (s : State), 1 ≤ bytes.length → bytes.length ≤ 4 →
    ∃ t, exec (.absorb bytes) s = .next t ∧
      t.len = s.len + BitVec.ofNat 32 bytes.length ∧
      t.bcnt = s.bcnt + BitVec.ofNat 3 bytes.length ∧
      (t.laneA, t.laneB) =
        (if s.bcnt.toNat + bytes.length < 8 then (s.laneA, s.laneB)
        else blockMix (s.laneA, s.laneB)
          (s.buf.toList.take s.bcnt.toNat ++ bytes.take (8 - s.bcnt.toNat))) ∧
      t.buf.toList.take t.bcnt.toNat =
        (if s.bcnt.toNat + bytes.length < 8 then s.buf.toList.take s.bcnt.toNat ++ bytes
        else bytes.drop (8 - s.bcnt.toNat)) ∧
      (∀ (i : Nat) (h : i < 8), (∀ j, j < bytes.length → (s.bcnt.toNat + j) % 8 ≠ i) →
        t.buf[i] = s.buf[i]) ∧
      t.seed = s.seed ∧ t.result = s.result ∧ t.done = s.done ∧ t.ill = s.ill ∧ t.sr = s.sr ∧
      t.cnt = s.cnt ∧ t.cbusy = s.cbusy ∧ t.inputs = s.inputs ∧ t.delivered = s.delivered ∧
      t.draws = s.draws

/-- R74: FINAL. Everything not named keeps its value: `SEED`, `BUF`, `ILL`, `SR` and `CNT` among it. -/
def Obligations.FinalWritesResult : Prop :=
  (∀ data : Word, decode (0x08#8 ++ data) = .ok .final) ∧
  (∀ s : State, exec .final s =
    .next { s with
      result := finalize (tailMix (s.laneA, s.laneB) (s.buf.toList.take s.bcnt.toNat)) s.len
      done := true, laneA := s.seed, laneB := s.seed, len := 0, bcnt := 0 }) ∧
  ∃ t, execList [.init 0, .absorb [0x66, 0x6F, 0x6F], .final] State.reset = .next t ∧
    t.result = 0xB1461F1FEE189C88 ∧ t.done = true

/-- R76 and R116: FINAL leaves the HashEngine as INIT of the seed it holds would, reset as INIT of 0
would; both hold the empty message, and a message delivered then with no INIT, in any chunks of 1 to 4
bytes, hashes with that seed. -/
def Obligations.FinalAndResetStartAsInit : Prop :=
  (∀ s t : State, exec .final s = .next t →
    exec (.init s.seed) t = .next t ∧ t.seed = s.seed ∧ t.HoldsMessage [] ∧
    ∀ chunks : List (List Byte), (∀ c ∈ chunks, (Instr.absorb c).WellFormed) →
      ∃ u, execList (chunks.map .absorb ++ [.final]) t = .next u ∧
        u.result = hash64 chunks.flatten s.seed) ∧
  ∀ (s t : State) (p : PortIn) (rest : List PortIn), s.inputs = p :: rest → p.rst = true →
    step s = .next t → exec (.init 0) t = .next t ∧ t.seed = 0 ∧ t.HoldsMessage [] ∧
    ∀ chunks : List (List Byte), (∀ c ∈ chunks, (Instr.absorb c).WellFormed) →
      ∃ u, execList (chunks.map .absorb ++ [.final]) t = .next u ∧
        u.result = hash64 chunks.flatten 0

/-- R70, R73, R34: a state that holds `m` holds `m` and the bytes delivered after it, in any number of
ABSORBs of 1 to 4 bytes each, once they are absorbed; SEED stays. -/
def Obligations.AbsorbExtendsMessage : Prop :=
  ∀ (m : List Byte) (chunks : List (List Byte)) (s : State), s.HoldsMessage m →
    (∀ c ∈ chunks, (Instr.absorb c).WellFormed) →
    ∃ t, execList (chunks.map .absorb) s = .next t ∧ t.HoldsMessage (m ++ chunks.flatten) ∧
      t.seed = s.seed

/-- R70, R74: FINAL of a state that holds `m` gives `hash64` of `m` under its seed. -/
def Obligations.FinalHashesMessage : Prop :=
  ∀ (m : List Byte) (s : State), s.HoldsMessage m →
    ∃ t, exec .final s = .next t ∧ t.result = hash64 m s.seed ∧ t.done = true

/-- R75: INIT, ABSORBs and FINAL leave `hash64` of the message, whatever NOP, ENCODE, LDLO, LDHI,
reserved commands or handshakes stand between or beside them, as long as no INIT, FINAL or reset does;
and each chunk of 1 to 4 bytes is presented by the ABSORB of it. -/
def Obligations.InterleavedMessageHashes : Prop :=
  (∀ (s : State) (seed : Word) (first last : PortIn) (between rest : List PortIn),
    s.cbusy = false → s.inputs = first :: (between ++ last :: rest) →
    first.rst = false → first.command? = some (.init seed) →
    (∀ p ∈ between, p.insideMessage = true) →
    last.rst = false → last.command? = some .final →
    ∃ t, runSteps (between.length + 2) s = .next t ∧
      t.result = hash64 (between.flatMap PortIn.messageBytes) seed ∧ t.done = true ∧
      t.inputs = rest) ∧
  ∀ chunk : List Byte, 1 ≤ chunk.length → chunk.length ≤ 4 →
    (PortIn.present (encodeWord (.absorb chunk))).insideMessage = true ∧
    (PortIn.present (encodeWord (.absorb chunk))).messageBytes = chunk

/-- R56: HASH is INIT, the ABSORBs of its bytes in order, 4 per command but for the last, and FINAL; it
is `ceil(m/4) + 2` commands, each well formed, and leaves `hash64` of its bytes. -/
def Obligations.HashExpansionHashes : Prop :=
  ∀ (seed : Word) (bytes : List Byte),
    (hashCommands seed bytes).length = (bytes.length + 3) / 4 + 2 ∧
    (∃ chunks : List (List Byte),
      hashCommands seed bytes = .init seed :: (chunks.map .absorb ++ [.final]) ∧
      chunks.flatten = bytes ∧ ∀ c ∈ chunks.dropLast, c.length = 4) ∧
    (∀ i ∈ hashCommands seed bytes, i.WellFormed) ∧
    ∀ s : State, ∃ t, execList (hashCommands seed bytes) s = .next t ∧
      t.result = hash64 bytes seed ∧ t.done = true

/-! ### Base32Encoder -/

/-- R37: the alphabet ROM entry by entry. The order of the symbols is the source's; their codes are the
ASCII codes, which the spec takes from general knowledge and the model presumes with it (PRESUMED,
assumption log 11). -/
def Obligations.AlphabetRomEntries : Prop :=
  (∀ i : BitVec 5, i.toNat ≤ 25 → (rom i).toNat = 0x61 + i.toNat) ∧
  ∀ i : BitVec 5, 26 ≤ i.toNat → (rom i).toNat = 0x32 + (i.toNat - 26)

/-- R85: the twelve 5-bit fields of `v`, the last index from its 4 low bits and a zero, and the rule's
examples. -/
def Obligations.IndexClosedForm : Prop :=
  (∀ (v : DWord) (i : Nat), i ≤ 11 → encIndex v i = v.extractLsb' (59 - 5 * i) 5) ∧
  (∀ v : DWord, encIndex v 12 = v.extractLsb' 0 4 ++ 0#1) ∧
  (∀ v : DWord, (encIndex v 12).toNat = 2 * (v.toNat % 16)) ∧
  base32 0x000000000000000F = List.replicate 12 0x61 ++ [0x36] ∧
  base32 0x0000000000000010 = List.replicate 11 0x61 ++ [0x62, 0x61]

/-- R92: 13 characters, each of the alphabet; distinct values give distinct strings; the strings given
are exactly those of 13 alphabet characters whose last index is even. -/
def Obligations.EncodingImage : Prop :=
  (∀ v : DWord, (base32 v).length = 13 ∧ ∀ c ∈ base32 v,
    (0x61 ≤ c.toNat ∧ c.toNat ≤ 0x7A) ∨ (0x32 ≤ c.toNat ∧ c.toNat ≤ 0x37)) ∧
  (∀ v w : DWord, base32 v = base32 w → v = w) ∧
  ∀ indices : List (BitVec 5), indices.length = 13 →
    ((∃ v : DWord, base32 v = indices.map rom) ↔ ∃ k, indices[12]? = some k ∧ k.toNat % 2 = 0)

/-- R86: ENCODE while `CNT = 0`. Everything not named keeps its value: `RESULT`, `DONE` and `ILL` among
it; `EBUSY` becomes 1. -/
def Obligations.EncodeStartsSerializer : Prop :=
  (∀ data : Word, decode (0x10#8 ++ data) = .ok .encode) ∧
  (∀ s : State, s.cnt = 0 → exec .encode s = .next { s with sr := s.result, cnt := 13 }) ∧
  (∀ s t : State, s.cnt = 0 → exec .encode s = .next t → t.status.getLsbD 0 = true) ∧
  base32 0xB1461F1FEE189C88 =
    [0x77, 0x66, 0x64, 0x62, 0x36, 0x68, 0x37, 0x6F, 0x64, 0x63, 0x6F, 0x69, 0x71]

/-- R90, R48: ENCODE waits while `CNT != 0`, other commands do not, and a host that presents ENCODE and
never takes a character changes nothing, however long. R90 says only that the ENCODE step is not enabled:
that `exec` of ENCODE answers the unchanged state there, and that each entry presenting it is consumed, is
the model's choice (DESIGN CHOICE, assumption log 8). -/
def Obligations.EncodeWaitsForSerializer : Prop :=
  (∀ (s : State) (data : Word), s.cnt ≠ 0 → s.cmdReady false (0x10#8 ++ data) = false) ∧
  (∀ s : State, s.cnt ≠ 0 → exec .encode s = .next s) ∧
  (∀ (s : State) (w : Command), opField w ≠ 0x10 → s.cbusy = false → s.cmdReady false w = true) ∧
  ∀ s : State, s.cnt ≠ 0 →
    (∀ p ∈ s.inputs, p.rst = false ∧ p.chReady = false ∧ opField p.cmdData = 0x10) →
    ∀ k, runSteps k s = .next { s with inputs := s.inputs.drop k }

/-- R87: one character handshake, and the `j`-th after an ENCODE of `V` delivers `ROM[enc_index(V, j-1)]`. -/
def Obligations.EmitRule : Prop :=
  (∀ (s : State) (rest : List PortIn), s.cnt ≠ 0 →
    step { s with inputs := PortIn.take :: rest } =
      .next { s with
        inputs := rest, delivered := s.delivered ++ [rom (s.sr.extractLsb' 59 5)]
        sr := s.sr <<< 5, cnt := s.cnt - 1 }) ∧
  (∀ (s : State) (rest : List PortIn), s.cnt = 0 →
    step { s with inputs := PortIn.take :: rest } = .next { s with inputs := rest }) ∧
  ∀ (s u : State) (j : Nat) (rest : List PortIn), s.cnt = 0 → 1 ≤ j → j ≤ 13 →
    exec .encode s = .next u →
    ∃ t, runSteps j { u with inputs := List.replicate j PortIn.take ++ rest } = .next t ∧
      t.delivered.getLast? = some (rom (encIndex s.result (j - 1)))

/-- R91: ENCODE of `V` and 13 handshakes deliver `encode(V)` in order and drain the serializer; a
further handshake delivers nothing. -/
def Obligations.ThirteenCharactersThenIdle : Prop :=
  ∀ (s : State) (data : Word) (rest : List PortIn), s.cnt = 0 → s.cbusy = false →
    s.inputs = PortIn.present (0x10#8 ++ data) :: (List.replicate 13 PortIn.take ++ rest) →
    ∃ t, runSteps 14 s = .next t ∧
      t = { s with inputs := rest, sr := 0, delivered := s.delivered ++ base32 s.result } ∧
      t.status.getLsbD 0 = false ∧
      step { t with inputs := PortIn.take :: rest } = .next t

/-- R95, R32 item 5: after an accepted ENCODE of `V`, whatever commands follow, the characters handed
over are those of `encode(V)`, as many as the host took; until the last of them `SR` and `CNT` are what
R32 says. -/
def Obligations.SnapshotSurvivesCommands : Prop :=
  ∀ (s : State) (first : PortIn) (after rest : List PortIn), s.cnt = 0 → s.cbusy = false →
    s.inputs = first :: (after ++ rest) → first.rst = false → first.command? = some .encode →
    (∀ p ∈ after, p.rst = false) → (after.filter (·.chReady)).length ≤ 13 →
    ∃ t, runSteps (after.length + 1) s = .next t ∧ t.inputs = rest ∧
      t.delivered = s.delivered ++ (base32 s.result).take (after.filter (·.chReady)).length ∧
      ((after.filter (·.chReady)).length < 13 →
        t.cnt.toNat = 13 - (after.filter (·.chReady)).length ∧
        t.sr = s.result <<< (5 * (after.filter (·.chReady)).length))

/-- R88: LDLO. Everything not named keeps its value. The example is the rule's. -/
def Obligations.LdloLoadsLowHalf : Prop :=
  (∀ data : Word, decode (0x20#8 ++ data) = .ok (.ldlo data)) ∧
  (∀ (data : Word) (s : State), exec (.ldlo data) s =
    .next { s with result := s.result.extractLsb' 32 32 ++ data, done := false }) ∧
  ∃ t, execList [.ldlo 1, .encode] State.reset = .next t ∧
    base32 t.sr = List.replicate 12 0x61 ++ [0x63]

/-- R89: LDHI. Everything not named keeps its value. The example is the rule's. -/
def Obligations.LdhiLoadsHighHalf : Prop :=
  (∀ data : Word, decode (0x21#8 ++ data) = .ok (.ldhi data)) ∧
  (∀ (data : Word) (s : State), exec (.ldhi data) s =
    .next { s with result := data ++ s.result.extractLsb' 0 32, done := false }) ∧
  ∃ t, execList [.ldhi 0x80000000, .encode] State.reset = .next t ∧
    base32 t.sr = 0x71 :: List.replicate 12 0x61

/-- R57: LDRES loads a whole value, in either order of its two commands. -/
def Obligations.LoadResultEitherOrder : Prop :=
  ∀ (v : DWord) (s : State),
    ldresCommands v = [.ldlo (v.extractLsb' 0 32), .ldhi (v.extractLsb' 32 32)] ∧
    execList (ldresCommands v) s = .next { s with result := v, done := false } ∧
    execList (ldresCommands v).reverse s = .next { s with result := v, done := false }

/-- R2, R58 (the CORE's part): the port entries of UNIQ deliver `encode(hash64(bytes, 0))`. -/
def Obligations.IdentifierIsDelivered : Prop :=
  ∀ (bytes : List Byte) (s : State) (rest : List PortIn), s.cnt = 0 → s.cbusy = false →
    s.inputs = uniqEntries bytes ++ rest →
    ∃ t, runSteps (uniqEntries bytes).length s = .next t ∧ t.inputs = rest ∧
      t.result = hash64 bytes 0 ∧ t.delivered = s.delivered ++ base32 (hash64 bytes 0) ∧
      t.ill = s.ill ∧ t.cnt = 0

/-- R112, R58: the run of UNIQ's commands ends with its last character, and not before. -/
def Obligations.IdentifierRunEndsWithLastCharacter : Prop :=
  ∀ (bytes : List Byte) (s : State) (rest : List PortIn), s.cnt = 0 → s.cbusy = false →
    s.inputs = uniqEntries bytes ++ rest →
    EndsAfter ((hashCommands 0 bytes ++ [Instr.encode]).map encodeWord) s (uniqEntries bytes).length
end

