-- ==== Sys2Proof/Laws/Encoding.lean ====
section
/-! SUPPORT. The fields of a command word built from its two fields, the decoder on such a word, and
`le32` and `dataByte` against each other (30_encoding.md R47 to R50; 20_memory.md R36). -/

namespace Sys2Proof.Machine

theorem toNat_append {n m : Nat} (x : BitVec n) (y : BitVec m) :
    (x ++ y).toNat = x.toNat * 2 ^ m + y.toNat := by
  rw [BitVec.toNat_append, Nat.shiftLeft_eq, Nat.mul_comm, ← Nat.two_pow_add_eq_or_of_lt y.isLt]

theorem toNat_word (op : BitVec 8) (data : Word) :
    (op ++ data : Command).toNat = op.toNat * 2 ^ 32 + data.toNat :=
  toNat_append op data

@[simp] theorem opField_word (op : BitVec 8) (data : Word) : opField (op ++ data) = op := by
  apply BitVec.eq_of_toNat_eq
  have := op.isLt
  have := data.isLt
  rw [opField, BitVec.extractLsb'_toNat, toNat_word, Nat.shiftRight_eq_div_pow]
  omega

@[simp] theorem dataField_word (op : BitVec 8) (data : Word) : dataField (op ++ data) = data := by
  apply BitVec.eq_of_toNat_eq
  have := data.isLt
  rw [dataField, BitVec.extractLsb'_toNat, toNat_word, Nat.shiftRight_eq_div_pow]
  omega

/-- The decoder on a word given by its fields. -/
theorem decode_word (op : BitVec 8) (data : Word) : decode (op ++ data) =
    if op = 0x00 then .ok .nop
    else if op = 0x01 then .ok (.init data)
    else if op &&& 0xFC = 0x04 then .ok (.absorb (absorbBytes (absorbCount op) data))
    else if op = 0x08 then .ok .final
    else if op = 0x10 then .ok .encode
    else if op = 0x20 then .ok (.ldlo data)
    else if op = 0x21 then .ok (.ldhi data)
    else .error (.reserved op) := by
  unfold decode
  rw [opField_word, dataField_word]

/-! ### `le32` as a concatenation -/

theorem le32_one (b0 : Byte) : le32 [b0] = 0#24 ++ b0 := by
  apply BitVec.eq_of_toNat_eq
  rw [show (0#24 ++ b0 : Word).toNat = _ from toNat_append 0#24 b0]
  have := b0.isLt
  simp [le32]
  omega

theorem le32_two (b0 b1 : Byte) : le32 [b0, b1] = 0#16 ++ b1 ++ b0 := by
  apply BitVec.eq_of_toNat_eq
  rw [show (0#16 ++ b1 ++ b0 : Word).toNat = _ from toNat_append (0#16 ++ b1) b0, toNat_append]
  have := b0.isLt
  have := b1.isLt
  simp [le32]
  omega

theorem le32_three (b0 b1 b2 : Byte) : le32 [b0, b1, b2] = 0#8 ++ b2 ++ b1 ++ b0 := by
  apply BitVec.eq_of_toNat_eq
  rw [show (0#8 ++ b2 ++ b1 ++ b0 : Word).toNat = _ from toNat_append (0#8 ++ b2 ++ b1) b0,
    toNat_append, toNat_append]
  have := b0.isLt
  have := b1.isLt
  have := b2.isLt
  simp [le32]
  omega

theorem le32_four (b0 b1 b2 b3 : Byte) : le32 [b0, b1, b2, b3] = b3 ++ b2 ++ b1 ++ b0 := by
  apply BitVec.eq_of_toNat_eq
  rw [show (b3 ++ b2 ++ b1 ++ b0 : Word).toNat = _ from toNat_append (b3 ++ b2 ++ b1) b0,
    toNat_append, toNat_append]
  have := b0.isLt
  have := b1.isLt
  have := b2.isLt
  have := b3.isLt
  simp [le32]
  omega

/-! ### Assembling and taking apart the DATA field -/

/-- Up to four bytes fill `le32` without a wrap. -/
theorem toNat_le32_cons (b : Byte) (l : List Byte) (h : l.length ≤ 3) :
    (le32 (b :: l)).toNat = b.toNat + 256 * (le32 l).toNat ∧ (le32 l).toNat < 2 ^ (8 * l.length) := by
  induction l generalizing b with
  | nil =>
    refine ⟨?_, by decide⟩
    have := b.isLt
    simp [le32]
    omega
  | cons c l ih =>
    obtain ⟨e, hl⟩ := ih c (by simp at h; omega)
    have hb := b.isLt
    have hc := c.isLt
    have hbound : (le32 (c :: l)).toNat < 2 ^ (8 * (c :: l).length) := by
      rw [e, List.length_cons, Nat.mul_add, Nat.pow_add]
      omega
    refine ⟨?_, hbound⟩
    have : 2 ^ (8 * (c :: l).length) ≤ 2 ^ 24 :=
      Nat.pow_le_pow_right (by omega) (by simp at h ⊢; omega)
    rw [le32, BitVec.toNat_add, BitVec.toNat_mul]
    simp
    omega

/-- Byte `i` of the assembled DATA field is byte `i` of the list. -/
theorem dataByte_le32 (bytes : List Byte) (i : Nat) (hi : i < bytes.length) (h4 : bytes.length ≤ 4) :
    dataByte (le32 bytes) i = bytes[i] := by
  induction bytes generalizing i with
  | nil => simp at hi
  | cons b l ih =>
    obtain ⟨e, _⟩ := toNat_le32_cons b l (by simp at h4; omega)
    apply BitVec.eq_of_toNat_eq
    unfold dataByte
    rw [BitVec.extractLsb'_toNat, Nat.shiftRight_eq_div_pow, e]
    have hb := b.isLt
    cases i with
    | zero => simp; omega
    | succ i =>
      have h := congrArg BitVec.toNat (ih i (by simpa using hi) (by simp at h4; omega))
      unfold dataByte at h
      rw [BitVec.extractLsb'_toNat, Nat.shiftRight_eq_div_pow] at h
      simp only [List.getElem_cons_succ, ← h]
      rw [Nat.mul_add, Nat.add_comm (8 * i), Nat.pow_add, ← Nat.div_div_eq_div_mul]
      congr 2
      omega

/-- The bytes taken out of the assembled DATA field are the bytes put in. -/
theorem absorbBytes_le32 (bytes : List Byte) (h : bytes.length ≤ 4) :
    absorbBytes bytes.length (le32 bytes) = bytes := by
  apply List.ext_getElem (by simp [absorbBytes])
  intro i _ h2
  simp [absorbBytes, dataByte_le32 bytes i h2 h]

end Sys2Proof.Machine
end

