-- ==== Sys2Proof/Laws/State.lean ====
section
/-! SUPPORT. What each named operation of Machine/Ops.lean leaves in each field of the state, one lemma
a field, so that no proof unfolds a record update. -/

namespace Sys2Proof.Machine

variable (s : State)

/-! ### raiseIll -/

@[simp] theorem State.raiseIll_laneA : (s.raiseIll).laneA = s.laneA := rfl
@[simp] theorem State.raiseIll_laneB : (s.raiseIll).laneB = s.laneB := rfl
@[simp] theorem State.raiseIll_seed : (s.raiseIll).seed = s.seed := rfl
@[simp] theorem State.raiseIll_len : (s.raiseIll).len = s.len := rfl
@[simp] theorem State.raiseIll_buf : (s.raiseIll).buf = s.buf := rfl
@[simp] theorem State.raiseIll_bcnt : (s.raiseIll).bcnt = s.bcnt := rfl
@[simp] theorem State.raiseIll_result : (s.raiseIll).result = s.result := rfl
@[simp] theorem State.raiseIll_done : (s.raiseIll).done = s.done := rfl
@[simp] theorem State.raiseIll_ill : (s.raiseIll).ill = true := rfl
@[simp] theorem State.raiseIll_sr : (s.raiseIll).sr = s.sr := rfl
@[simp] theorem State.raiseIll_cnt : (s.raiseIll).cnt = s.cnt := rfl
@[simp] theorem State.raiseIll_cbusy : (s.raiseIll).cbusy = s.cbusy := rfl
@[simp] theorem State.raiseIll_inputs : (s.raiseIll).inputs = s.inputs := rfl
@[simp] theorem State.raiseIll_delivered : (s.raiseIll).delivered = s.delivered := rfl
@[simp] theorem State.raiseIll_draws : (s.raiseIll).draws = s.draws := rfl

/-! ### applyReset -/

@[simp] theorem State.applyReset_laneA : (s.applyReset).laneA = 0 := rfl
@[simp] theorem State.applyReset_laneB : (s.applyReset).laneB = 0 := rfl
@[simp] theorem State.applyReset_seed : (s.applyReset).seed = 0 := rfl
@[simp] theorem State.applyReset_len : (s.applyReset).len = 0 := rfl
@[simp] theorem State.applyReset_buf : (s.applyReset).buf = Config.freeBuf s.draws := rfl
@[simp] theorem State.applyReset_bcnt : (s.applyReset).bcnt = 0 := rfl
@[simp] theorem State.applyReset_result : (s.applyReset).result = 0 := rfl
@[simp] theorem State.applyReset_done : (s.applyReset).done = false := rfl
@[simp] theorem State.applyReset_ill : (s.applyReset).ill = false := rfl
@[simp] theorem State.applyReset_sr : (s.applyReset).sr = 0 := rfl
@[simp] theorem State.applyReset_cnt : (s.applyReset).cnt = 0 := rfl
@[simp] theorem State.applyReset_cbusy : (s.applyReset).cbusy = false := rfl
@[simp] theorem State.applyReset_inputs : (s.applyReset).inputs = s.inputs := rfl
@[simp] theorem State.applyReset_delivered : (s.applyReset).delivered = s.delivered := rfl
@[simp] theorem State.applyReset_draws : (s.applyReset).draws = s.draws + 1 := rfl

/-! ### withInputs -/

@[simp] theorem State.withInputs_laneA (rest : List PortIn) : (s.withInputs rest).laneA = s.laneA := rfl
@[simp] theorem State.withInputs_laneB (rest : List PortIn) : (s.withInputs rest).laneB = s.laneB := rfl
@[simp] theorem State.withInputs_seed (rest : List PortIn) : (s.withInputs rest).seed = s.seed := rfl
@[simp] theorem State.withInputs_len (rest : List PortIn) : (s.withInputs rest).len = s.len := rfl
@[simp] theorem State.withInputs_buf (rest : List PortIn) : (s.withInputs rest).buf = s.buf := rfl
@[simp] theorem State.withInputs_bcnt (rest : List PortIn) : (s.withInputs rest).bcnt = s.bcnt := rfl
@[simp] theorem State.withInputs_result (rest : List PortIn) : (s.withInputs rest).result = s.result := rfl
@[simp] theorem State.withInputs_done (rest : List PortIn) : (s.withInputs rest).done = s.done := rfl
@[simp] theorem State.withInputs_ill (rest : List PortIn) : (s.withInputs rest).ill = s.ill := rfl
@[simp] theorem State.withInputs_sr (rest : List PortIn) : (s.withInputs rest).sr = s.sr := rfl
@[simp] theorem State.withInputs_cnt (rest : List PortIn) : (s.withInputs rest).cnt = s.cnt := rfl
@[simp] theorem State.withInputs_cbusy (rest : List PortIn) : (s.withInputs rest).cbusy = s.cbusy := rfl
@[simp] theorem State.withInputs_inputs (rest : List PortIn) : (s.withInputs rest).inputs = rest := rfl
@[simp] theorem State.withInputs_delivered (rest : List PortIn) : (s.withInputs rest).delivered = s.delivered := rfl
@[simp] theorem State.withInputs_draws (rest : List PortIn) : (s.withInputs rest).draws = s.draws := rfl

/-! ### beginMessage -/

@[simp] theorem State.beginMessage_laneA (v : Word) : (s.beginMessage v).laneA = v := rfl
@[simp] theorem State.beginMessage_laneB (v : Word) : (s.beginMessage v).laneB = v := rfl
@[simp] theorem State.beginMessage_seed (v : Word) : (s.beginMessage v).seed = v := rfl
@[simp] theorem State.beginMessage_len (v : Word) : (s.beginMessage v).len = 0 := rfl
@[simp] theorem State.beginMessage_buf (v : Word) : (s.beginMessage v).buf = s.buf := rfl
@[simp] theorem State.beginMessage_bcnt (v : Word) : (s.beginMessage v).bcnt = 0 := rfl
@[simp] theorem State.beginMessage_result (v : Word) : (s.beginMessage v).result = s.result := rfl
@[simp] theorem State.beginMessage_done (v : Word) : (s.beginMessage v).done = s.done := rfl
@[simp] theorem State.beginMessage_ill (v : Word) : (s.beginMessage v).ill = s.ill := rfl
@[simp] theorem State.beginMessage_sr (v : Word) : (s.beginMessage v).sr = s.sr := rfl
@[simp] theorem State.beginMessage_cnt (v : Word) : (s.beginMessage v).cnt = s.cnt := rfl
@[simp] theorem State.beginMessage_cbusy (v : Word) : (s.beginMessage v).cbusy = s.cbusy := rfl
@[simp] theorem State.beginMessage_inputs (v : Word) : (s.beginMessage v).inputs = s.inputs := rfl
@[simp] theorem State.beginMessage_delivered (v : Word) : (s.beginMessage v).delivered = s.delivered := rfl
@[simp] theorem State.beginMessage_draws (v : Word) : (s.beginMessage v).draws = s.draws := rfl

/-! ### bufferByte -/

@[simp] theorem State.bufferByte_laneA (b : Byte) : (s.bufferByte b).laneA = s.laneA := rfl
@[simp] theorem State.bufferByte_laneB (b : Byte) : (s.bufferByte b).laneB = s.laneB := rfl
@[simp] theorem State.bufferByte_seed (b : Byte) : (s.bufferByte b).seed = s.seed := rfl
@[simp] theorem State.bufferByte_len (b : Byte) : (s.bufferByte b).len = s.len + 1 := rfl
@[simp] theorem State.bufferByte_buf (b : Byte) : (s.bufferByte b).buf = s.bufWith b := rfl
@[simp] theorem State.bufferByte_bcnt (b : Byte) : (s.bufferByte b).bcnt = s.bcnt + 1 := rfl
@[simp] theorem State.bufferByte_result (b : Byte) : (s.bufferByte b).result = s.result := rfl
@[simp] theorem State.bufferByte_done (b : Byte) : (s.bufferByte b).done = s.done := rfl
@[simp] theorem State.bufferByte_ill (b : Byte) : (s.bufferByte b).ill = s.ill := rfl
@[simp] theorem State.bufferByte_sr (b : Byte) : (s.bufferByte b).sr = s.sr := rfl
@[simp] theorem State.bufferByte_cnt (b : Byte) : (s.bufferByte b).cnt = s.cnt := rfl
@[simp] theorem State.bufferByte_cbusy (b : Byte) : (s.bufferByte b).cbusy = s.cbusy := rfl
@[simp] theorem State.bufferByte_inputs (b : Byte) : (s.bufferByte b).inputs = s.inputs := rfl
@[simp] theorem State.bufferByte_delivered (b : Byte) : (s.bufferByte b).delivered = s.delivered := rfl
@[simp] theorem State.bufferByte_draws (b : Byte) : (s.bufferByte b).draws = s.draws := rfl

/-! ### closeBlock -/

@[simp] theorem State.closeBlock_laneA (b : Byte) (l : Word × Word) : (s.closeBlock b l).laneA = l.1 := rfl
@[simp] theorem State.closeBlock_laneB (b : Byte) (l : Word × Word) : (s.closeBlock b l).laneB = l.2 := rfl
@[simp] theorem State.closeBlock_seed (b : Byte) (l : Word × Word) : (s.closeBlock b l).seed = s.seed := rfl
@[simp] theorem State.closeBlock_len (b : Byte) (l : Word × Word) : (s.closeBlock b l).len = s.len + 1 := rfl
@[simp] theorem State.closeBlock_buf (b : Byte) (l : Word × Word) : (s.closeBlock b l).buf = s.bufWith b := rfl
@[simp] theorem State.closeBlock_bcnt (b : Byte) (l : Word × Word) : (s.closeBlock b l).bcnt = 0 := rfl
@[simp] theorem State.closeBlock_result (b : Byte) (l : Word × Word) : (s.closeBlock b l).result = s.result := rfl
@[simp] theorem State.closeBlock_done (b : Byte) (l : Word × Word) : (s.closeBlock b l).done = s.done := rfl
@[simp] theorem State.closeBlock_ill (b : Byte) (l : Word × Word) : (s.closeBlock b l).ill = s.ill := rfl
@[simp] theorem State.closeBlock_sr (b : Byte) (l : Word × Word) : (s.closeBlock b l).sr = s.sr := rfl
@[simp] theorem State.closeBlock_cnt (b : Byte) (l : Word × Word) : (s.closeBlock b l).cnt = s.cnt := rfl
@[simp] theorem State.closeBlock_cbusy (b : Byte) (l : Word × Word) : (s.closeBlock b l).cbusy = s.cbusy := rfl
@[simp] theorem State.closeBlock_inputs (b : Byte) (l : Word × Word) : (s.closeBlock b l).inputs = s.inputs := rfl
@[simp] theorem State.closeBlock_delivered (b : Byte) (l : Word × Word) : (s.closeBlock b l).delivered = s.delivered := rfl
@[simp] theorem State.closeBlock_draws (b : Byte) (l : Word × Word) : (s.closeBlock b l).draws = s.draws := rfl

/-! ### finishMessage -/

@[simp] theorem State.finishMessage_laneA (v : DWord) : (s.finishMessage v).laneA = s.seed := rfl
@[simp] theorem State.finishMessage_laneB (v : DWord) : (s.finishMessage v).laneB = s.seed := rfl
@[simp] theorem State.finishMessage_seed (v : DWord) : (s.finishMessage v).seed = s.seed := rfl
@[simp] theorem State.finishMessage_len (v : DWord) : (s.finishMessage v).len = 0 := rfl
@[simp] theorem State.finishMessage_buf (v : DWord) : (s.finishMessage v).buf = s.buf := rfl
@[simp] theorem State.finishMessage_bcnt (v : DWord) : (s.finishMessage v).bcnt = 0 := rfl
@[simp] theorem State.finishMessage_result (v : DWord) : (s.finishMessage v).result = v := rfl
@[simp] theorem State.finishMessage_done (v : DWord) : (s.finishMessage v).done = true := rfl
@[simp] theorem State.finishMessage_ill (v : DWord) : (s.finishMessage v).ill = s.ill := rfl
@[simp] theorem State.finishMessage_sr (v : DWord) : (s.finishMessage v).sr = s.sr := rfl
@[simp] theorem State.finishMessage_cnt (v : DWord) : (s.finishMessage v).cnt = s.cnt := rfl
@[simp] theorem State.finishMessage_cbusy (v : DWord) : (s.finishMessage v).cbusy = s.cbusy := rfl
@[simp] theorem State.finishMessage_inputs (v : DWord) : (s.finishMessage v).inputs = s.inputs := rfl
@[simp] theorem State.finishMessage_delivered (v : DWord) : (s.finishMessage v).delivered = s.delivered := rfl
@[simp] theorem State.finishMessage_draws (v : DWord) : (s.finishMessage v).draws = s.draws := rfl

/-! ### setLoaded -/

@[simp] theorem State.setLoaded_laneA (v : DWord) : (s.setLoaded v).laneA = s.laneA := rfl
@[simp] theorem State.setLoaded_laneB (v : DWord) : (s.setLoaded v).laneB = s.laneB := rfl
@[simp] theorem State.setLoaded_seed (v : DWord) : (s.setLoaded v).seed = s.seed := rfl
@[simp] theorem State.setLoaded_len (v : DWord) : (s.setLoaded v).len = s.len := rfl
@[simp] theorem State.setLoaded_buf (v : DWord) : (s.setLoaded v).buf = s.buf := rfl
@[simp] theorem State.setLoaded_bcnt (v : DWord) : (s.setLoaded v).bcnt = s.bcnt := rfl
@[simp] theorem State.setLoaded_result (v : DWord) : (s.setLoaded v).result = v := rfl
@[simp] theorem State.setLoaded_done (v : DWord) : (s.setLoaded v).done = false := rfl
@[simp] theorem State.setLoaded_ill (v : DWord) : (s.setLoaded v).ill = s.ill := rfl
@[simp] theorem State.setLoaded_sr (v : DWord) : (s.setLoaded v).sr = s.sr := rfl
@[simp] theorem State.setLoaded_cnt (v : DWord) : (s.setLoaded v).cnt = s.cnt := rfl
@[simp] theorem State.setLoaded_cbusy (v : DWord) : (s.setLoaded v).cbusy = s.cbusy := rfl
@[simp] theorem State.setLoaded_inputs (v : DWord) : (s.setLoaded v).inputs = s.inputs := rfl
@[simp] theorem State.setLoaded_delivered (v : DWord) : (s.setLoaded v).delivered = s.delivered := rfl
@[simp] theorem State.setLoaded_draws (v : DWord) : (s.setLoaded v).draws = s.draws := rfl

/-! ### startSerializer -/

@[simp] theorem State.startSerializer_laneA : (s.startSerializer).laneA = s.laneA := rfl
@[simp] theorem State.startSerializer_laneB : (s.startSerializer).laneB = s.laneB := rfl
@[simp] theorem State.startSerializer_seed : (s.startSerializer).seed = s.seed := rfl
@[simp] theorem State.startSerializer_len : (s.startSerializer).len = s.len := rfl
@[simp] theorem State.startSerializer_buf : (s.startSerializer).buf = s.buf := rfl
@[simp] theorem State.startSerializer_bcnt : (s.startSerializer).bcnt = s.bcnt := rfl
@[simp] theorem State.startSerializer_result : (s.startSerializer).result = s.result := rfl
@[simp] theorem State.startSerializer_done : (s.startSerializer).done = s.done := rfl
@[simp] theorem State.startSerializer_ill : (s.startSerializer).ill = s.ill := rfl
@[simp] theorem State.startSerializer_sr : (s.startSerializer).sr = s.result := rfl
@[simp] theorem State.startSerializer_cnt : (s.startSerializer).cnt = 13 := rfl
@[simp] theorem State.startSerializer_cbusy : (s.startSerializer).cbusy = s.cbusy := rfl
@[simp] theorem State.startSerializer_inputs : (s.startSerializer).inputs = s.inputs := rfl
@[simp] theorem State.startSerializer_delivered : (s.startSerializer).delivered = s.delivered := rfl
@[simp] theorem State.startSerializer_draws : (s.startSerializer).draws = s.draws := rfl

/-! ### handOver -/

@[simp] theorem State.handOver_laneA (c : Byte) : (s.handOver c).laneA = s.laneA := rfl
@[simp] theorem State.handOver_laneB (c : Byte) : (s.handOver c).laneB = s.laneB := rfl
@[simp] theorem State.handOver_seed (c : Byte) : (s.handOver c).seed = s.seed := rfl
@[simp] theorem State.handOver_len (c : Byte) : (s.handOver c).len = s.len := rfl
@[simp] theorem State.handOver_buf (c : Byte) : (s.handOver c).buf = s.buf := rfl
@[simp] theorem State.handOver_bcnt (c : Byte) : (s.handOver c).bcnt = s.bcnt := rfl
@[simp] theorem State.handOver_result (c : Byte) : (s.handOver c).result = s.result := rfl
@[simp] theorem State.handOver_done (c : Byte) : (s.handOver c).done = s.done := rfl
@[simp] theorem State.handOver_ill (c : Byte) : (s.handOver c).ill = s.ill := rfl
@[simp] theorem State.handOver_sr (c : Byte) : (s.handOver c).sr = s.sr <<< 5 := rfl
@[simp] theorem State.handOver_cnt (c : Byte) : (s.handOver c).cnt = s.cnt - 1 := rfl
@[simp] theorem State.handOver_cbusy (c : Byte) : (s.handOver c).cbusy = s.cbusy := rfl
@[simp] theorem State.handOver_inputs (c : Byte) : (s.handOver c).inputs = s.inputs := rfl
@[simp] theorem State.handOver_delivered (c : Byte) : (s.handOver c).delivered = s.delivered ++ [c] := rfl
@[simp] theorem State.handOver_draws (c : Byte) : (s.handOver c).draws = s.draws := rfl

end Sys2Proof.Machine
end

