-- ==== Sys2Proof/Laws/Machine.lean ====
section
/-! SUPPORT. One lemma for each shared operation that says once everything it can do: the answers of the
meanings, one absorbed byte, the serializer's part of an edge, an edge, a step. Later proofs cite these
and do not unfold the operations. -/

namespace Sys2Proof.Machine

/-! ### The meanings -/

@[simp] theorem exec_nop (s : State) : exec .nop s = .next s := rfl
@[simp] theorem exec_init (v : Word) (s : State) :
    exec (.init v) s = .next (s.beginMessage v) := rfl
@[simp] theorem exec_absorb (bytes : List Byte) (s : State) :
    exec (.absorb bytes) s = .next (bytes.foldl absorbByte s) := rfl
@[simp] theorem exec_final (s : State) :
    exec .final s = .next (s.finishMessage s.hashValue) := rfl
theorem exec_encode (s : State) :
    exec .encode s = if s.cnt = 0 then .next s.startSerializer else .next s := rfl
@[simp] theorem exec_ldlo (v : Word) (s : State) :
    exec (.ldlo v) s = .next (s.setLoaded (withLowHalf s.result v)) := rfl
@[simp] theorem exec_ldhi (v : Word) (s : State) :
    exec (.ldhi v) s = .next (s.setLoaded (withHighHalf s.result v)) := rfl

theorem exec_encode_idle {s : State} (h : s.cnt = 0) : exec .encode s = .next s.startSerializer :=
  (exec_encode s).trans (if_pos h)

theorem exec_encode_waits {s : State} (h : s.cnt ≠ 0) : exec .encode s = .next s :=
  (exec_encode s).trans (if_neg h)

/-- The effect of an accepted command, as a state. -/
def effect (i : Instr) (s : State) : State :=
  match i with
  | .nop => s
  | .init v => (s.beginMessage v)
  | .absorb bytes => bytes.foldl absorbByte s
  | .final => (s.finishMessage s.hashValue)
  | .encode => if s.cnt = 0 then s.startSerializer else s
  | .ldlo v => s.setLoaded (withLowHalf s.result v)
  | .ldhi v => s.setLoaded (withHighHalf s.result v)

/-- Everything a meaning can answer. -/
theorem exec_eq_effect (i : Instr) (s : State) : exec i s = .next (effect i s) := by
  cases i with
  | encode => rw [exec_encode, effect]; split <;> rfl
  | _ => rfl

/-! ### One byte -/

/-- A byte that does not complete a block is buffered, and the lanes stay. -/
theorem absorbByte_buffers {s : State} {b : Byte} (h : s.bcnt ≠ 7) :
    absorbByte s b = s.bufferByte b :=
  if_neg h

/-- The eighth byte of a block is mixed with the seven held before it. -/
theorem absorbByte_completes {s : State} {b : Byte} (h : s.bcnt = 7) :
    absorbByte s b = s.closeBlock b (blockMix (s.laneA, s.laneB) (s.bufWith b).toList) :=
  if_pos h

/-- Everything one absorbed byte can do. -/
theorem absorbByte_cases (s : State) (b : Byte) :
    absorbByte s b = s.bufferByte b ∨ ∃ lanes, absorbByte s b = s.closeBlock b lanes := by
  by_cases h : s.bcnt = 7
  · exact .inr ⟨_, absorbByte_completes h⟩
  · exact .inl (absorbByte_buffers h)

/-- ABSORB leaves every register outside the message's own alone. -/
structure SameOutsideMessage (s t : State) : Prop where
  seed : t.seed = s.seed
  result : t.result = s.result
  done : t.done = s.done
  ill : t.ill = s.ill
  sr : t.sr = s.sr
  cnt : t.cnt = s.cnt
  cbusy : t.cbusy = s.cbusy
  inputs : t.inputs = s.inputs
  delivered : t.delivered = s.delivered
  draws : t.draws = s.draws

theorem absorbByte_frame (s : State) (b : Byte) : SameOutsideMessage s (absorbByte s b) := by
  rcases absorbByte_cases s b with h | ⟨l, h⟩ <;> rw [h] <;> constructor <;> rfl

theorem foldl_absorbByte_frame (bytes : List Byte) (s : State) :
    SameOutsideMessage s (bytes.foldl absorbByte s) := by
  induction bytes generalizing s with
  | nil => constructor <;> rfl
  | cons b bs ih =>
    have h1 := absorbByte_frame s b
    have h2 := ih (absorbByte s b)
    constructor
    · exact h2.seed.trans h1.seed
    · exact h2.result.trans h1.result
    · exact h2.done.trans h1.done
    · exact h2.ill.trans h1.ill
    · exact h2.sr.trans h1.sr
    · exact h2.cnt.trans h1.cnt
    · exact h2.cbusy.trans h1.cbusy
    · exact h2.inputs.trans h1.inputs
    · exact h2.delivered.trans h1.delivered
    · exact h2.draws.trans h1.draws

/-! ### Ports -/

theorem State.serialize_cases (s : State) (p : PortIn) :
    (s.handsOver p = true ∧ s.serialize p = s.emit) ∨ (s.handsOver p = false ∧ s.serialize p = s) := by
  unfold State.serialize
  cases s.handsOver p <;> simp

theorem State.handsOver_iff (s : State) (p : PortIn) :
    s.handsOver p = true ↔ p.rst = false ∧ s.cnt ≠ 0 ∧ p.chReady = true := by
  simp [State.handsOver, State.chValid, and_assoc]

theorem State.accepts_iff (s : State) (p : PortIn) :
    s.accepts p = true ↔ p.cmdValid = true ∧ p.rst = false ∧ s.cbusy = false ∧
      ¬(opField p.cmdData = 0x10 ∧ s.cnt ≠ 0) := by
  simp [State.accepts, State.cmdReady, and_assoc]
  tauto

/-- A command is accepted when `cmd_valid` and the port `cmd_ready` coincide (R27). -/
theorem State.accepts_eq_port (s : State) (p : PortIn) :
    s.accepts p = (p.cmdValid && s.cmdReadyPort p) := by
  unfold State.accepts State.cmdReadyPort
  cases p.cmdValid <;> rfl

/-- What the port `cmd_ready` shows, with a command presented and without. -/
theorem State.cmdReadyPort_iff (s : State) (p : PortIn) :
    s.cmdReadyPort p = true ↔ p.rst = false ∧ s.cbusy = false ∧
      ¬(p.cmdValid = true ∧ opField p.cmdData = 0x10 ∧ s.cnt ≠ 0) := by
  unfold State.cmdReadyPort
  cases p.cmdValid <;> simp [State.cmdReady, and_assoc]
  tauto

/-- What an accepted word does, as a state. -/
def wordEffect (w : Command) (s : State) : State :=
  match decode w with
  | .ok i => effect i s
  | .error _ => s.raiseIll

theorem runCommand_eq (w : Command) (s : State) : runCommand w s = .next (wordEffect w s) := by
  unfold runCommand wordEffect
  cases decode w <;> simp [exec_eq_effect]

/-- Everything an edge can do. -/
theorem edge_cases (p : PortIn) (s : State) :
    (p.rst = true ∧ edge p s = .next s.applyReset) ∨
    (p.rst = false ∧ s.accepts p = true ∧ edge p s = .next (wordEffect p.cmdData (s.serialize p))) ∨
    (p.rst = false ∧ s.accepts p = false ∧ edge p s = .next (s.serialize p)) := by
  unfold edge
  cases p.rst <;> cases s.accepts p <;> simp [runCommand_eq]

theorem step_idle {s : State} (h : s.inputs = []) : step s = .next s := by
  unfold step advance
  rw [h]

theorem step_edge {s : State} {p : PortIn} {rest : List PortIn} (h : s.inputs = p :: rest) :
    step s = edge p (s.withInputs rest) := by
  unfold step advance
  rw [h]

/-- Everything a step that consumes an entry can do, as one equation. -/
theorem step_entry {s : State} {p : PortIn} {rest : List PortIn} (h : s.inputs = p :: rest) :
    step s = .next
      (if p.rst then (s.withInputs rest).applyReset
      else if s.accepts p then wordEffect p.cmdData ((s.withInputs rest).serialize p)
      else (s.withInputs rest).serialize p) := by
  rw [step_edge h]
  have ha : (s.withInputs rest).accepts p = s.accepts p := rfl
  rcases edge_cases p (s.withInputs rest) with ⟨hr, e⟩ | ⟨hr, hx, e⟩ | ⟨hr, hx, e⟩ <;> rw [e] <;>
    simp_all

theorem runSteps_zero (s : State) : runSteps 0 s = .next s := rfl

theorem runSteps_succ {k : Nat} {s t : State} (h : step s = .next t) :
    runSteps (k + 1) s = runSteps k t := by
  rw [runSteps, h]

theorem core_run_succ (M : Host.Core) (k : Nat) (s : M.State) :
    M.run (k + 1) s = match M.step s with
      | .next t => M.run k t
      | .fault r => .fault r
      | .refused r => .refused r := rfl

theorem core_run_next {M : Host.Core} {k : Nat} {s t : M.State} (h : M.step s = .next t) :
    M.run (k + 1) s = M.run k t := by
  rw [core_run_succ, h]

/-- Every step answers a next state, the effect of the next entry. -/
theorem step_next (s : State) : ∃ t, step s = .next t := by
  cases h : s.inputs with
  | nil => exact ⟨s, step_idle h⟩
  | cons p rest =>
    rw [step_edge h]
    rcases edge_cases p (s.withInputs rest) with ⟨_, e⟩ | ⟨_, _, e⟩ | ⟨_, _, e⟩ <;> exact ⟨_, e⟩

/-- A run of `a + b` steps goes through the state after `a` of them. -/
theorem runSteps_add {a b : Nat} {s t : State} (h : runSteps a s = .next t) :
    runSteps (a + b) s = runSteps b t := by
  induction a generalizing s with
  | zero =>
    cases h
    rw [Nat.zero_add]
  | succ a ih =>
    obtain ⟨u, hu⟩ := step_next s
    rw [Nat.add_right_comm, runSteps_succ hu]
    rw [runSteps_succ hu] at h
    exact ih h

/-- `runSteps` is the host's `Host.Core.run` on this machine. -/
theorem runSteps_eq_run (k : Nat) (s : State) : runSteps k s = Host.Core.run Sys2Proof.core k s := by
  induction k generalizing s with
  | zero => rfl
  | succ k ih =>
    obtain ⟨t, h⟩ := step_next s
    exact (runSteps_succ h).trans ((ih t).trans
      (core_run_next (M := Sys2Proof.core) (k := k) (s := s) (t := t) h).symm)

end Sys2Proof.Machine
end

