-- ==== Sys2Proof/Laws/Message.lean ====
section
/-! SUPPORT. How the blocks and the tail of a message grow by one byte (40_hash_engine.md R70, R73;
20_memory.md R38), and what a byte stored in `BUF` does to the bytes held there. -/

namespace Sys2Proof.Machine

/-- Bytes after a full block do not change it. -/
theorem messageBlock_append {m l : List Byte} {j : Nat} (h : 8 * j + 8 ≤ m.length) :
    messageBlock (m ++ l) j = messageBlock m j := by
  unfold messageBlock
  rw [List.drop_append_of_le_length (by omega),
    List.take_append_of_le_length (by rw [List.length_drop]; omega)]

theorem foldl_blocks_append {m l : List Byte} {n : Nat} (h : 8 * n ≤ m.length) (x : Word × Word) :
    (List.range n).foldl (fun lanes j => blockMix lanes (messageBlock (m ++ l) j)) x =
      (List.range n).foldl (fun lanes j => blockMix lanes (messageBlock m j)) x := by
  induction n with
  | zero => simp only [List.range_zero, List.foldl_nil]
  | succ n ih =>
    rw [List.range_succ, List.foldl_append, List.foldl_append, ih (by omega)]
    simp only [List.foldl_cons, List.foldl_nil, messageBlock_append (m := m) (l := l) (j := n) (by omega)]

theorem length_messageTail (m : List Byte) : (messageTail m).length = m.length % 8 := by
  rw [messageTail, List.length_drop]
  omega

/-- A byte inside a block does not touch the lanes. -/
theorem messageLanes_push_inside {m : List Byte} (b : Byte) (seed : Word) (h : m.length % 8 ≠ 7) :
    messageLanes (m ++ [b]) seed = messageLanes m seed := by
  unfold messageLanes
  rw [show (m ++ [b]).length / 8 = m.length / 8 by simp; omega]
  exact foldl_blocks_append (by omega) _

/-- A byte inside a block is one more tail byte. -/
theorem messageTail_push_inside {m : List Byte} (b : Byte) (h : m.length % 8 ≠ 7) :
    messageTail (m ++ [b]) = messageTail m ++ [b] := by
  unfold messageTail
  rw [show (m ++ [b]).length / 8 = m.length / 8 by simp; omega]
  exact List.drop_append_of_le_length (by omega)

/-- The eighth byte of a block mixes the tail and itself. -/
theorem messageLanes_push_block {m : List Byte} (b : Byte) (seed : Word) (h : m.length % 8 = 7) :
    messageLanes (m ++ [b]) seed = blockMix (messageLanes m seed) (messageTail m ++ [b]) := by
  have hb : messageBlock (m ++ [b]) (m.length / 8) = messageTail m ++ [b] := by
    unfold messageBlock messageTail
    rw [List.drop_append_of_le_length (by omega)]
    exact List.take_of_length_le (by simp; omega)
  unfold messageLanes
  rw [show (m ++ [b]).length / 8 = m.length / 8 + 1 by simp; omega, List.range_succ, List.foldl_append,
    foldl_blocks_append (by omega)]
  simp only [List.foldl_cons, List.foldl_nil, hb]

/-- The eighth byte of a block leaves no tail. -/
theorem messageTail_push_block {m : List Byte} (b : Byte) (h : m.length % 8 = 7) :
    messageTail (m ++ [b]) = [] := by
  unfold messageTail
  exact List.drop_of_length_le (by simp; omega)

/-- A byte stored at `BCNT` follows the bytes held there. -/
theorem State.bufWith_take (s : State) (b : Byte) :
    (s.bufWith b).toList.take (s.bcnt.toNat + 1) = s.tail ++ [b] := by
  have h : s.bcnt.toNat < 8 := s.bcnt.isLt
  unfold State.bufWith State.tail
  rw [Vector.toList_set, List.take_set, List.take_succ_eq_append_getElem (by simpa using h),
    List.set_append_right _ _ (by simp)]
  simp [Nat.min_eq_left (Nat.le_of_lt h)]

/-- The buffer with its eighth byte in place is the tail and that byte. -/
theorem State.bufWith_full {s : State} (b : Byte) (h : s.bcnt = 7) :
    (s.bufWith b).toList = s.tail ++ [b] := by
  rw [← State.bufWith_take]
  exact (List.take_of_length_le (by simp [h])).symm

/-- A `BCNT` that is not 7 advances without wrapping. -/
theorem toNat_bcnt_succ {n : BitVec 3} (h : n ≠ 7) : (n + 1).toNat = n.toNat + 1 := by
  have h7 : n.toNat ≠ 7 := fun e => h (BitVec.eq_of_toNat_eq e)
  have := n.isLt
  rw [BitVec.toNat_add]
  simp
  omega

/-- One absorbed byte extends the message held by itself (R73). -/
theorem absorbByte_holds {m : List Byte} {s : State} (b : Byte) (h : s.HoldsMessage m) :
    (absorbByte s b).HoldsMessage (m ++ [b]) := by
  by_cases h7 : s.bcnt = 7
  · have hm : m.length % 8 = 7 := by
      rw [← h.bcnt, h7]
      rfl
    have hl := messageLanes_push_block b s.seed hm
    rw [absorbByte_completes h7, State.bufWith_full b h7, h.lanes, h.tail, ← hl]
    generalize hL : messageLanes (m ++ [b]) s.seed = lanes
    constructor
    · exact hL.symm
    · rw [messageTail_push_block b hm]
      simp [State.tail]
    · simp
      omega
    · simp [h.len, BitVec.ofNat_add]
  · have hm : m.length % 8 ≠ 7 := by
      rw [← h.bcnt]
      intro e
      exact h7 (BitVec.eq_of_toNat_eq e)
    have hn := toNat_bcnt_succ h7
    rw [absorbByte_buffers h7]
    constructor
    · simp only [State.bufferByte_laneA, State.bufferByte_laneB, State.bufferByte_seed,
        messageLanes_push_inside b _ hm, h.lanes]
    · rw [messageTail_push_inside b hm, ← h.tail, ← State.bufWith_take]
      unfold State.tail
      rw [State.bufferByte_bcnt, hn]
      rfl
    · have := h.bcnt
      rw [State.bufferByte_bcnt, hn, h.bcnt]
      simp
      omega
    · simp [h.len, BitVec.ofNat_add]

end Sys2Proof.Machine
end

