-- ==== Sys2Proof/Laws/PerInstr.lean ====
section
/-! SUPPORT. Statements made per instruction. TableRow: the word the encoder writes for a well-formed
command carries the match value of its row of spec/opcode_table.json under the row's mask. -/

namespace Sys2Proof

open Sys2Proof.Machine

/-- The "mask" of the command's row of spec/opcode_table.json. -/
def Laws.TableRow.mask : Instr → Command
  | .nop => 0xFF00000000
  | .init _ => 0xFF00000000
  | .absorb _ => 0xFC00000000
  | .final => 0xFF00000000
  | .encode => 0xFF00000000
  | .ldlo _ => 0xFF00000000
  | .ldhi _ => 0xFF00000000

/-- The "match" of the command's row of spec/opcode_table.json. -/
def Laws.TableRow.value : Instr → Command
  | .nop => 0x0000000000
  | .init _ => 0x0100000000
  | .absorb _ => 0x0400000000
  | .final => 0x0800000000
  | .encode => 0x1000000000
  | .ldlo _ => 0x2000000000
  | .ldhi _ => 0x2100000000

/-- The encoded word matches the command's row. -/
def Laws.TableRow.Statement (i : Instr) : Prop :=
  i.WellFormed → encodeWord i &&& Laws.TableRow.mask i = Laws.TableRow.value i

/-- A mask on `OP` alone keeps of a word what it keeps of `OP`. -/
theorem Laws.TableRow.word_and (op m : BitVec 8) (data : Word) :
    (op ++ data : Command) &&& (m ++ 0#32) = (op &&& m) ++ 0#32 := by
  have h : (op ++ data) &&& (m ++ 0#32) = (op &&& m) ++ (data &&& 0#32) := BitVec.and_append
  rw [BitVec.and_zero] at h
  exact h

theorem Laws.TableRow.nop : Laws.TableRow.Statement .nop := fun _ => by decide

theorem Laws.TableRow.init (seed : Word) : Laws.TableRow.Statement (.init seed) := fun _ =>
  Laws.TableRow.word_and 0x01 0xFF seed

theorem Laws.TableRow.absorb (bytes : List Byte) : Laws.TableRow.Statement (.absorb bytes) := by
  intro h
  simp only [Instr.WellFormed, Instr.wellFormed, Bool.and_eq_true, decide_eq_true_eq] at h
  have hop : ∀ n, n < 4 → (0x04 + BitVec.ofNat 8 n) &&& 0xFC = (0x04 : BitVec 8) := by decide
  refine (Laws.TableRow.word_and _ 0xFC (le32 bytes)).trans ?_
  rw [hop (bytes.length - 1) (by omega)]
  rfl

theorem Laws.TableRow.final : Laws.TableRow.Statement .final := fun _ => by decide

theorem Laws.TableRow.encode : Laws.TableRow.Statement .encode := fun _ => by decide

theorem Laws.TableRow.ldlo (v : Word) : Laws.TableRow.Statement (.ldlo v) := fun _ =>
  Laws.TableRow.word_and 0x20 0xFF v

theorem Laws.TableRow.ldhi (v : Word) : Laws.TableRow.Statement (.ldhi v) := fun _ =>
  Laws.TableRow.word_and 0x21 0xFF v

end Sys2Proof
end

