-- ==== Sys2Proof/Laws/Serializer.lean ====
section
/-! SUPPORT. The characters of an encoding one after the other (41_base32_encoder.md R83, R84, R87). -/

namespace Sys2Proof.Machine

/-- The top five bits after `n` shifts are the index of position `n`. -/
theorem topBits_shifted (v : DWord) (n : Nat) : (v <<< (5 * n)).extractLsb' 59 5 = encIndex v n := by
  unfold encIndex
  apply BitVec.eq_of_toNat_eq
  simp [BitVec.extractLsb'_toNat]

/-- One more character of the encoding. -/
theorem base32_take_succ (v : DWord) {n : Nat} (h : n < 13) :
    (base32 v).take (n + 1) = (base32 v).take n ++ [rom (encIndex v n)] := by
  unfold base32
  rw [List.take_succ_eq_append_getElem (by simpa using h)]
  simp

theorem length_base32 (v : DWord) : (base32 v).length = 13 := by
  simp [base32]

/-- One more shift by a character. -/
theorem shifted_succ (v : DWord) (n : Nat) : v <<< (5 * n) <<< 5 = v <<< (5 * (n + 1)) := by
  rw [← BitVec.shiftLeft_add, Nat.mul_add]

end Sys2Proof.Machine
end

