-- ==== Sys2Proof/Tests/Slice0.lean ====
section
/-! SUPPORT. The model's own tests: expected values are those of 95_test_vectors.md and of the rules'
examples, and for each statement with hypotheses a concrete state and operands that meet them. -/

namespace Sys2Proof.Tests

open Sys2Proof.Machine

/-! ### Well-formedness -/

theorem test_absorb_of_no_byte_is_ill_formed : ¬(Instr.absorb []).WellFormed := by decide
theorem test_absorb_of_five_bytes_is_ill_formed : ¬(Instr.absorb [1, 2, 3, 4, 5]).WellFormed := by decide
theorem test_absorb_bounds_are_well_formed :
    (Instr.absorb [1]).WellFormed ∧ (Instr.absorb [1, 2, 3, 4]).WellFormed := by decide

/-! ### Decoding: words written out from R47 and R49 -/

theorem test_decode_nop : (decode (0b00000000#8 ++ 0xDEADBEEF#32)).toOption = some .nop := by decide
theorem test_decode_init :
    (decode (0b00000001#8 ++ 0x12345678#32)).toOption = some (.init 0x12345678) := by decide
theorem test_decode_absorb_one :
    (decode (0b00000100#8 ++ 0xFFFFFF61#32)).toOption = some (.absorb [0x61]) := by decide
theorem test_decode_absorb_four :
    (decode (0b00000111#8 ++ 0x646F6F66#32)).toOption = some (.absorb [0x66, 0x6F, 0x6F, 0x64]) := by
  decide
theorem test_decode_final : (decode (0b00001000#8 ++ 0#32)).toOption = some .final := by decide
theorem test_decode_encode : (decode (0b00010000#8 ++ 0#32)).toOption = some .encode := by decide
theorem test_decode_ldlo : (decode (0b00100000#8 ++ 1#32)).toOption = some (.ldlo 1) := by decide
theorem test_decode_ldhi :
    (decode (0b00100001#8 ++ 0x80000000#32)).toOption = some (.ldhi 0x80000000) := by decide
theorem test_decode_reserved_neighbours :
    ([0x02, 0x03, 0x09, 0x0F, 0x11, 0x1F, 0x22, 0xFF].all fun op : BitVec 8 =>
      (decode (op ++ 0#32)).toOption.isNone) = true := by decide
/-- R55: "foo" is `0x06006F6F66`. -/
theorem test_encode_absorb_foo : encodeWord (.absorb [0x66, 0x6F, 0x6F]) = 0x06006F6F66 := by decide
theorem test_assembler_text :
    instrText (.absorb [0x66, 0x6F, 0x6F]) = "ABSORB 0x66, 0x6F, 0x6F" ∧
    wordText 0x06006F6F66 = "0x06006F6F66" := by decide

/-! ### The functions -/

/-- R37: the alphabet, symbol by symbol. -/
theorem test_rom_alphabet :
    (List.range 32).map (fun i => (rom (BitVec.ofNat 5 i)).toNat) =
      "abcdefghijklmnopqrstuvwxyz234567".toList.map Char.toNat := by decide
theorem test_rotl32 : rotl32 0x80000001 15 = 0x0000C000 ∧ rotl32 0x12345678 13 = 0x8ACF0246 := by decide
theorem test_mix_k1_wraps : mixK1 0x80000000 = 0xA5E24000 := by decide
theorem test_mix_k2 : mixK2 0xFFFFFFFF = 0xA28C56D6 := by decide
theorem test_fmix : fmix 0x12345678 = 0xE37CD1BC := by decide
theorem test_block_mix_reads_new_lane_a :
    blockMix (0x12345678, 0x12345678) [0x61, 0x62, 0x63, 0x64, 0x65, 0x66, 0x67, 0x68] =
      (0x54398CBE, 0x2E0B653C) := by decide
theorem test_tail_mix_seven :
    tailMix (0, 0) [1, 2, 3, 4, 5, 6, 7] = (0xFFF4C2EC, 0xDF0B3D6E) := by decide
theorem test_finalize : finalize (0xFFFFFFFF, 0xFFFFFFFF) 0 = 0xCE0306DC23CC64F0 := by decide
theorem test_hash64_two_blocks_and_tail :
    hash64 ((List.range 17).map fun i => BitVec.ofNat 8 (i + 1)) 0 = 0x46389DC932891942 := by decide
/-- R81: collisions between different (message, seed) pairs. -/
theorem test_hash64_collisions :
    hash64 [0] 0 = 0x3CD62B54B6E5772D ∧ hash64 [] 1 = 0x3CD62B54B6E5772D ∧
    hash64 [0] 1 = 0 ∧ hash64 [] 0 = 0 := by decide
/-- 95_test_vectors.md 2.8: `aerukz4jvpg66`. -/
theorem test_base32_mixed_bits :
    (base32 0x0123456789ABCDEF).map BitVec.toNat = "aerukz4jvpg66".toList.map Char.toNat := by decide

/-! ### One step -/

/-- The next state of `s` after the host presents the word `w`. -/
def after (s : State) (w : Nat) : Option State := nextState? (step (s.withFetchWord 40 w))

/-- The state in which `bytes` were absorbed after INIT of `seed`, no block complete. -/
def holding (seed : Word) (bytes : Vector Byte 8) (n : BitVec 3) : State :=
  { State.reset with
    seed := seed, laneA := seed, laneB := seed, buf := bytes, bcnt := n, len := n.setWidth 32 }

/-- The result of "foo" held, done, with `n` characters to hand over. -/
def encoding (n : BitVec 4) : State :=
  { State.reset with
    result := 0xB1461F1FEE189C88, done := true, sr := 0xB1461F1FEE189C88, cnt := n }

/-- V2. -/
theorem test_nop_ignores_data : after State.reset 0x00DEADBEEF = some State.reset := by decide

/-- V4: INIT discards the partial message and keeps `DONE`. -/
theorem test_init_discards_message :
    (after { holding 5 #v[1, 2, 3, 0, 0, 0, 0, 0] 3 with done := true } 0x0100000000).map
      (fun t => (t.laneA, t.seed, t.len, t.bcnt, t.status)) = some (0, 0, 0, 0, 0x0002) := by decide

/-- V6: the bytes above `n` are ignored. -/
theorem test_absorb_ignores_high_bytes :
    (after State.reset 0x04FFFFFF61).map (fun t => (t.buf[0], t.buf[1], t.len, t.status)) =
      some (0x61, 0, 1, 0x0100) := by decide

/-- V8: the first byte completes the block, the second goes to `BUF[0]`. -/
theorem test_absorb_across_block :
    (after (holding 0x12345678 #v[0x61, 0x62, 0x63, 0x64, 0x65, 0x66, 0x67, 0] 7) 0x0500006968).map
      (fun t => (t.laneA, t.laneB, t.buf[0], t.len, t.bcnt)) =
      some (0x54398CBE, 0x2E0B653C, 0x69, 9, 1) := by decide

/-- V10: FINAL under seed 1. -/
theorem test_final_empty_under_seed :
    (after (holding 1 #v[9, 9, 9, 9, 9, 9, 9, 9] 0) 0x0800000000).map
      (fun t => (t.result, t.done, t.laneA, t.status)) =
      some (0x3CD62B54B6E5772D, true, 1, 0x0002) := by decide

/-- R77: a 1-byte tail does not read the stale `BUF[1..3]`: the result is `finalize` of the tail word
`0x00000009`, whose key mix is `0x90E2241C`. -/
theorem test_final_reads_no_stale_byte :
    (after (holding 0 #v[9, 2, 3, 4, 5, 6, 7, 8] 1) 0x0800000000).map State.result =
      some (finalize (0x90E2241C, 0) 1) := by decide

/-- V12. -/
theorem test_encode_starts :
    (after (encoding 0) 0x1000000000).map (fun t => (t.sr, t.cnt, t.status)) =
      some (0xB1461F1FEE189C88, 13, 0x00D3) := by decide

/-- V14: ENCODE presented while `CNT = 5` is not accepted. -/
theorem test_encode_waits :
    (after (encoding 5) 0x1000000000).map (fun t => (t.sr, t.cnt, t.status)) =
      some (0xB1461F1FEE189C88, 5, 0x0053) := by decide

/-- V16. -/
theorem test_ldlo : (after State.reset 0x2000000001).map (fun t => (t.result, t.done)) =
    some (1, false) := by decide

/-- V17. -/
theorem test_ldhi : (after (encoding 0) 0x2180000000).map (fun t => (t.result, t.done)) =
    some (0x80000000EE189C88, false) := by decide

/-- V13: one character handshake. -/
theorem test_emit_first_character :
    (nextState? (step { encoding 13 with inputs := [PortIn.take] })).map
      (fun t => (t.delivered, t.sr, t.cnt, t.status)) =
      some ([0x77], 0x28C3E3FDC3139100, 12, 0x00C3) := by decide

/-- V18 and V19. -/
theorem test_reserved_sets_ill_only :
    after State.reset 0x0200000000 = some { State.reset with ill := true } ∧
    after { State.reset with ill := true } 0xFF12345678 = some { State.reset with ill := true } := by
  decide

/-- V20: reset of a state with everything set. -/
theorem test_reset_event :
    (nextState? (step { encoding 5 with ill := true, bcnt := 3, len := 3, inputs := [PortIn.reset] })).map
      (fun t => (t.result, t.ill, t.cnt, t.bcnt, t.status)) = some (0, false, 0, 0, 0x0000) := by decide

/-- R103: acceptance and handshake on one edge. -/
theorem test_same_edge_combines :
    (nextState? (step { encoding 13 with
      inputs := [{ PortIn.present 0x2000000001 with chReady := true }] })).map
      (fun t => (t.delivered, t.cnt, t.result)) = some ([0x77], 12, 0xB1461F1F00000001) := by decide

/-- R112: the run of a lone NOP ends after one step, and not before it is accepted. -/
theorem test_run_ends_once_accepted :
    endedAt [0x0000000000] (State.reset.withFetchWord 40 0) 0 = false ∧
    endedAt [0x0000000000] (State.reset.withFetchWord 40 0) 1 = true := by decide

/-! ### Witnesses: each statement's hypotheses can be met, at the boundaries of their ranges -/

/-- An edge that presents the command with these fields. -/
def presenting (op : BitVec 8) (data : Word) : State :=
  { State.reset with inputs := [PortIn.present (op ++ data)] }

theorem witness_DecodeOfEncode :
    (Instr.absorb [0xFF]).WellFormed ∧ (Instr.absorb [1, 2, 3, 0xFF]).WellFormed ∧
    Instr.nop.WellFormed ∧ (Instr.init 0xFFFFFFFF).WellFormed := by decide

theorem witness_EncodeOfDecode :
    (decode (0x05#8 ++ 0xFFFF6F66#32)).toOption = some (.absorb [0x66, 0x6F]) ∧
    (decode (0x01#8 ++ 7#32)).toOption = some (.init 7) ∧
    (decode (0x08#8 ++ 7#32)).toOption = some .final := by decide

theorem witness_DecodeFollowsOpcodeMap :
    (0xFF : BitVec 8) ∉ [0x00, 0x01, 0x04, 0x05, 0x06, 0x07, 0x08, 0x10, 0x20, 0x21] ∧
    (0x02 : BitVec 8) ∉ [0x00, 0x01, 0x04, 0x05, 0x06, 0x07, 0x08, 0x10, 0x20, 0x21] := by decide

theorem witness_IgnoredBitsHaveNoEffect :
    opField 0x00DEADBEEF = opField 0x0000000000 ∧ opField 0x00DEADBEEF ∈ [0x00, 0x08, 0x10] ∧
    opField 0x06FF6F6F66 = opField 0x06006F6F66 ∧ opField 0x06FF6F6F66 &&& 0xFC = 0x04 ∧
    (∀ k, k < 8 * ((opField 0x06FF6F6F66 &&& 0x03).toNat + 1) →
      BitVec.getLsbD (0x06FF6F6F66 : Command) k = BitVec.getLsbD (0x06006F6F66 : Command) k) ∧
    (Instr.absorb [1, 2, 3]).WellFormed := by decide

theorem witness_StepRunsAcceptedCommand :
    let p : PortIn := { PortIn.present 0x0400000061 with chReady := true }
    let s : State := { encoding 13 with inputs := [p] }
    s.inputs = p :: [] ∧ p.rst = false ∧ p.cmdValid = true ∧ s.cbusy = false ∧
    ¬(opField p.cmdData = 0x10 ∧ s.cnt ≠ 0) ∧ (decode p.cmdData).toOption = some (.absorb [0x61]) := by
  decide

theorem witness_AcceptanceIsCmdReady :
    (encoding 5).cmdReady false 0x1000000000 = false ∧ (encoding 5).cmdReady true 0 = false ∧
    (PortIn.present 0x0112345678).chReady = false ∧ (PortIn.present 0x0112345678).cmdValid = true ∧
    (encoding 5).cmdReady (PortIn.present 0x0112345678).rst (PortIn.present 0x0112345678).cmdData = true ∧
    (decode (PortIn.present 0x0112345678).cmdData).toOption = some (.init 0x12345678) ∧
    (PortIn.present 0x0200000000).chReady = false ∧ (PortIn.present 0x0200000000).cmdValid = true ∧
    (encoding 5).cmdReady (PortIn.present 0x0200000000).rst (PortIn.present 0x0200000000).cmdData = true ∧
    (decode (PortIn.present 0x0200000000).cmdData).toOption = none := by decide

theorem witness_ReservedCommandSetsIll :
    (([0x02, 0x03, 0x09, 0x0F, 0x11, 0x1F, 0x22, 0xFF] : List (BitVec 8)).all fun op => decide
      ((0x02 ≤ op.toNat ∧ op.toNat ≤ 0x03) ∨ (0x09 ≤ op.toNat ∧ op.toNat ≤ 0x0F) ∨
        (0x11 ≤ op.toNat ∧ op.toNat ≤ 0x1F) ∨ (0x22 ≤ op.toNat ∧ op.toNat ≤ 0xFF))) = true ∧
    (encoding 5).cbusy = false := by decide

theorem witness_ResetWinsAndClears :
    ({ encoding 5 with inputs := [PortIn.reset] } : State).inputs = PortIn.reset :: [] ∧
    PortIn.reset.rst = true := by decide

theorem witness_IdleHoldsState :
    (encoding 5).inputs = [] ∧
    ({ encoding 5 with inputs := [PortIn.idle] } : State).inputs = PortIn.idle :: [] ∧
    PortIn.idle.rst = false ∧ PortIn.idle.cmdValid = false ∧ PortIn.idle.chReady = false := by decide

theorem witness_InterleavingsAgree :
    opField 0x0400000061 ≠ 0x10 ∧ opField 0xFF00000000 ≠ 0x10 ∧ (encoding 1).cbusy = false := by decide

theorem witness_LastCharacterEdgeRefusesEncode : (encoding 1).cnt = 1 := by decide

theorem witness_PortsShowTheState :
    (encoding 5).cbusy = false ∧ PortIn.idle.rst = false ∧ (encoding 5).cnt ≠ 0 ∧
    State.reset.cnt = 0 ∧ ({ State.reset with cbusy := true } : State).cbusy = true ∧
    ((encoding 5).sample 0 (PortIn.present 0x1000000000)).cmdReady = false ∧
    ((encoding 5).sample 0 (PortIn.present 0x0800000000)).cmdReady = true ∧
    ((encoding 5).sample 0 { PortIn.idle with cmdData := 0x1000000000 }).cmdReady = true := by decide

theorem witness_NopChangesNothing :
    let p := PortIn.present (0x00#8 ++ 0xDEADBEEF#32)
    (encoding 5).cbusy = false ∧ p.rst = false ∧ p.cmdValid = true ∧
    p.cmdData = 0x00#8 ++ 0xDEADBEEF#32 ∧ (Instr.absorb [1]).WellFormed ∧ Instr.absorb [1] ≠ .nop := by
  decide

theorem witness_ResetValues : PortIn.idle.rst = false := by decide

theorem witness_StepKeepsInvariants :
    State.Inv (presenting 0x10 0) ∧ ∃ t, step (presenting 0x10 0) = .next t :=
  ⟨⟨by decide, by decide, by decide, ⟨0, by decide⟩, by decide⟩, ⟨_, rfl⟩⟩

theorem witness_StaleBufferNeverSeen :
    (holding 0 #v[9, 2, 3, 4, 5, 6, 7, 8] 1).SameButStale (holding 0 #v[9, 0, 0, 0, 0, 0, 0, 0] 1) := by
  decide

theorem witness_IllIsSticky :
    (presenting 0x02 0).inputs = PortIn.present (0x02#8 ++ 0#32) :: [] ∧
    ∃ t, step (presenting 0x02 0) = .next t :=
  ⟨by decide, ⟨_, rfl⟩⟩

theorem witness_DoneFollowsLastWrite :
    (presenting 0x08 0).inputs = PortIn.present (0x08#8 ++ 0#32) :: [] ∧
    (presenting 0x08 0).cbusy = false ∧ ∃ t, step (presenting 0x08 0) = .next t :=
  ⟨by decide, by decide, ⟨_, rfl⟩⟩

theorem witness_ResultWriters :
    (presenting 0x21 5).inputs = PortIn.present (0x21#8 ++ 5#32) :: [] ∧
    (presenting 0x21 5).cbusy = false ∧ ∃ t, step (presenting 0x21 5) = .next t :=
  ⟨by decide, by decide, ⟨_, rfl⟩⟩

theorem witness_CommandFrame :
    (∃ t, exec .nop State.reset = .next t) ∧ (∃ t, exec .encode State.reset = .next t) ∧
    (∀ v, Instr.nop ≠ .init v) ∧ (∀ bytes, Instr.nop ≠ .absorb bytes) ∧ Instr.nop ≠ .final ∧
    (∀ v, Instr.nop ≠ .ldlo v) ∧ (∀ v, Instr.nop ≠ .ldhi v) ∧ Instr.nop ≠ .encode := by
  refine ⟨⟨_, rfl⟩, ⟨_, rfl⟩, ?_, ?_, ?_, ?_, ?_, ?_⟩ <;> simp

theorem witness_CommandsIgnoreSerializer : Instr.final ≠ .encode ∧ Instr.init 3 ≠ .encode := by decide

theorem witness_RotationIsCircular : 1 ≤ 1 ∧ 1 ≤ 31 ∧ 31 ≤ 31 := by decide

theorem witness_AbsorbFillsBuffer :
    1 ≤ [(0xFF : Byte)].length ∧ [(0xFF : Byte)].length ≤ 4 ∧
    1 ≤ [(1 : Byte), 2, 3, 4].length ∧ [(1 : Byte), 2, 3, 4].length ≤ 4 ∧
    (∀ j, j < [(0xFF : Byte)].length → ((7#3).toNat + j) % 8 ≠ 0) := by decide

theorem witness_FinalAndResetStartAsInit :
    (∃ t, exec .final State.reset = .next t) ∧
    ({ State.reset with inputs := [PortIn.reset] } : State).inputs = PortIn.reset :: [] ∧
    PortIn.reset.rst = true ∧
    (∃ t, step { State.reset with inputs := [PortIn.reset] } = .next t) ∧
    ∀ c ∈ [[(1 : Byte), 2, 3, 4], [5]], (Instr.absorb c).WellFormed :=
  ⟨⟨_, rfl⟩, by decide, by decide, ⟨_, rfl⟩, by decide⟩

theorem witness_AbsorbExtendsMessage :
    (holding 3 #v[1, 2, 0, 0, 0, 0, 0, 0] 2).HoldsMessage [1, 2] ∧
    ∀ c ∈ [[(1 : Byte), 2, 3, 4], [5]], (Instr.absorb c).WellFormed :=
  ⟨⟨by decide, by decide, by decide, by decide⟩, by decide⟩

theorem witness_FinalHashesMessage :
    (holding 3 #v[1, 2, 3, 4, 5, 6, 7, 0] 7).HoldsMessage [1, 2, 3, 4, 5, 6, 7] :=
  ⟨by decide, by decide, by decide, by decide⟩

theorem witness_InterleavedMessageHashes :
    let first := PortIn.present (0x01#8 ++ 7#32)
    let between := [PortIn.present (0x04#8 ++ 0x61#32), PortIn.take, PortIn.present (0x10#8 ++ 0#32),
      PortIn.present (0xFF#8 ++ 0#32), PortIn.present (0x20#8 ++ 5#32)]
    let last := PortIn.present (0x08#8 ++ 0#32)
    let s : State := { State.reset with inputs := first :: (between ++ last :: []) }
    s.cbusy = false ∧ s.inputs = first :: (between ++ last :: []) ∧ first.rst = false ∧
    first.command? = some (.init 7) ∧ (∀ p ∈ between, p.insideMessage = true) ∧
    last.rst = false ∧ last.command? = some .final ∧ between.flatMap PortIn.messageBytes = [0x61] := by
  decide

theorem witness_AlphabetRomEntries :
    (0#5).toNat ≤ 25 ∧ (25#5).toNat ≤ 25 ∧ 26 ≤ (26#5).toNat ∧ 26 ≤ (31#5).toNat := by decide

theorem witness_IndexClosedForm : 0 ≤ 11 ∧ 11 ≤ 11 := by decide

theorem witness_EncodingImage :
    base32 5 = base32 5 ∧ (List.replicate 13 (30#5)).length = 13 ∧
    (List.replicate 13 (30#5))[12]? = some 30#5 ∧ (30#5).toNat % 2 = 0 := by decide

theorem witness_EncodeStartsSerializer : State.reset.cnt = 0 ∧ ∃ t, exec .encode State.reset = .next t :=
  ⟨by decide, ⟨_, rfl⟩⟩

theorem witness_EncodeWaitsForSerializer :
    let s : State := { encoding 5 with inputs := [PortIn.present (0x10#8 ++ 0#32), PortIn.present (0x10#8 ++ 1#32)] }
    s.cnt ≠ 0 ∧ (∀ p ∈ s.inputs, p.rst = false ∧ p.chReady = false ∧ opField p.cmdData = 0x10) ∧
    opField 0x0800000000 ≠ 0x10 ∧ s.cbusy = false := by decide

theorem witness_EmitRule :
    (encoding 1).cnt ≠ 0 ∧ (encoding 13).cnt ≠ 0 ∧ State.reset.cnt = 0 ∧ 1 ≤ 1 ∧ 13 ≤ 13 ∧
    ∃ u, exec .encode State.reset = .next u :=
  ⟨by decide, by decide, by decide, by decide, by decide, ⟨_, rfl⟩⟩

theorem witness_ThirteenCharactersThenIdle :
    let s : State := { encoding 0 with
      inputs := PortIn.present (0x10#8 ++ 0#32) :: (List.replicate 13 PortIn.take ++ []) }
    s.cnt = 0 ∧ s.cbusy = false ∧
    s.inputs = PortIn.present (0x10#8 ++ 0#32) :: (List.replicate 13 PortIn.take ++ []) := by decide

theorem witness_SnapshotSurvivesCommands :
    let first := PortIn.present (0x10#8 ++ 0#32)
    let following := [PortIn.take, { PortIn.present (0x08#8 ++ 0#32) with chReady := true },
      PortIn.present (0x20#8 ++ 9#32)]
    let s : State := { encoding 0 with inputs := first :: (following ++ []) }
    s.cnt = 0 ∧ s.cbusy = false ∧ s.inputs = first :: (following ++ []) ∧ first.rst = false ∧
    first.command? = some .encode ∧ (∀ p ∈ following, p.rst = false) ∧
    (following.filter (·.chReady)).length ≤ 13 ∧ (following.filter (·.chReady)).length < 13 := by decide

/-- The bound 13 itself is met: thirteen handshakes follow. -/
theorem witness_SnapshotSurvivesCommands_bound :
    ((List.replicate 13 PortIn.take).filter (·.chReady)).length = 13 ∧
    ∀ p ∈ List.replicate 13 PortIn.take, p.rst = false := by decide

theorem witness_IdentifierIsDelivered :
    let s : State := { encoding 0 with inputs := uniqEntries [0x66, 0x6F, 0x6F] ++ [] }
    s.cnt = 0 ∧ s.cbusy = false ∧ s.inputs = uniqEntries [0x66, 0x6F, 0x6F] ++ [] := by decide

/-- The same hypotheses, with bytes already held and characters of the empty message. -/
theorem witness_IdentifierRunEndsWithLastCharacter :
    let s : State := { holding 5 #v[1, 2, 3, 0, 0, 0, 0, 0] 3 with inputs := uniqEntries [] ++ [PortIn.take] }
    s.cnt = 0 ∧ s.cbusy = false ∧ s.inputs = uniqEntries [] ++ [PortIn.take] := by decide

end Sys2Proof.Tests
end

section
/-! SUPPORT. What the host's port entries do to a state: a presented command, a list of commands other
than ENCODE, a handshake, and the thirteen handshakes of an encoding. -/

namespace Sys2Proof.Machine

/-! ### The decoder on the encoder's words (30_encoding.md R49, R50, R55) -/

/-- The opcode of an ABSORB of `n + 1` bytes is in the ABSORB row alone, and gives the count back. -/
theorem absorb_opcode : ∀ n, n < 4 →
    (0x04 + BitVec.ofNat 8 n : BitVec 8) ≠ 0x00 ∧ (0x04 + BitVec.ofNat 8 n : BitVec 8) ≠ 0x01 ∧
    (0x04 + BitVec.ofNat 8 n : BitVec 8) &&& 0xFC = 0x04 ∧
    absorbCount (0x04 + BitVec.ofNat 8 n) = n + 1 := by decide

theorem Instr.wellFormed_absorb_iff {bytes : List Byte} :
    (Instr.absorb bytes).WellFormed ↔ 1 ≤ bytes.length ∧ bytes.length ≤ 4 := by
  simp [Instr.WellFormed, Instr.wellFormed]

theorem decode_encodeWord {i : Instr} (h : i.WellFormed) : decode (encodeWord i) = .ok i := by
  cases i with
  | absorb bytes =>
    obtain ⟨h1, h4⟩ := Instr.wellFormed_absorb_iff.mp h
    obtain ⟨hnop, hinit, hrow, hcount⟩ := absorb_opcode (bytes.length - 1) (by omega)
    rw [Nat.sub_add_cancel h1] at hcount
    rw [encodeWord, commandWord, decode_word, if_neg hnop, if_neg hinit, if_pos hrow, hcount,
      absorbBytes_le32 bytes h4]
  | _ => rw [encodeWord, commandWord, decode_word]; rfl

/-- Only ENCODE has the opcode that `cmd_ready` looks at (R48). -/
theorem decode_of_opField_encode {w : Command} (h : opField w = 0x10) : decode w = .ok .encode := by
  unfold decode
  rw [h]
  rfl

/-! ### `inputs` stands apart: no command reads or writes it -/

@[simp] theorem State.withInputs_withInputs (s : State) (a b : List PortIn) :
    (s.withInputs a).withInputs b = s.withInputs b := rfl

theorem absorbByte_withInputs (s : State) (b : Byte) (rest : List PortIn) :
    absorbByte (s.withInputs rest) b = (absorbByte s b).withInputs rest := by
  by_cases h : s.bcnt = 7
  · rw [absorbByte_completes h, absorbByte_completes (s := s.withInputs rest) h]
    rfl
  · rw [absorbByte_buffers h, absorbByte_buffers (s := s.withInputs rest) h]
    rfl

theorem foldl_absorbByte_withInputs (bytes : List Byte) (s : State) (rest : List PortIn) :
    bytes.foldl absorbByte (s.withInputs rest) = (bytes.foldl absorbByte s).withInputs rest := by
  induction bytes generalizing s with
  | nil => rfl
  | cons b bs ih => rw [List.foldl_cons, List.foldl_cons, absorbByte_withInputs, ih]

theorem effect_encode_idle {s : State} (h : s.cnt = 0) : effect .encode s = s.startSerializer :=
  if_pos h

theorem effect_encode_waits {s : State} (h : s.cnt ≠ 0) : effect .encode s = s :=
  if_neg h

theorem effect_withInputs (i : Instr) (s : State) (rest : List PortIn) :
    effect i (s.withInputs rest) = (effect i s).withInputs rest := by
  cases i with
  | absorb bytes => exact foldl_absorbByte_withInputs bytes s rest
  | encode =>
    by_cases h : s.cnt = 0
    · rw [effect_encode_idle h, effect_encode_idle (s := s.withInputs rest) h]
      rfl
    · rw [effect_encode_waits h, effect_encode_waits (s := s.withInputs rest) h]
  | _ => rfl

/-! ### Commands presented at the ports -/

/-- What no command but ENCODE writes: the serializer, the flags `ILL` and `CBUSY`, and the characters
delivered (R42). -/
structure KeptByCommands (s t : State) : Prop where
  ill : t.ill = s.ill
  sr : t.sr = s.sr
  cnt : t.cnt = s.cnt
  cbusy : t.cbusy = s.cbusy
  delivered : t.delivered = s.delivered

theorem KeptByCommands.trans {s t u : State} (h : KeptByCommands s t) (k : KeptByCommands t u) :
    KeptByCommands s u where
  ill := k.ill.trans h.ill
  sr := k.sr.trans h.sr
  cnt := k.cnt.trans h.cnt
  cbusy := k.cbusy.trans h.cbusy
  delivered := k.delivered.trans h.delivered

theorem effect_frame {i : Instr} (h : i ≠ .encode) (s : State) : KeptByCommands s (effect i s) := by
  cases i with
  | absorb bytes =>
    have k := foldl_absorbByte_frame bytes s
    exact ⟨k.ill, k.sr, k.cnt, k.cbusy, k.delivered⟩
  | encode => exact absurd rfl h
  | _ => constructor <;> rfl

/-- The effects of commands, one after the other (20_memory.md R42). -/
def effects (is : List Instr) (s : State) : State := is.foldl (fun t i => effect i t) s

@[simp] theorem effects_nil (s : State) : effects [] s = s := rfl

@[simp] theorem effects_cons (i : Instr) (is : List Instr) (s : State) :
    effects (i :: is) s = effects is (effect i s) := rfl

@[simp] theorem effects_append (is js : List Instr) (s : State) :
    effects (is ++ js) s = effects js (effects is s) :=
  List.foldl_append

theorem execList_eq_effects (is : List Instr) (s : State) :
    execList is s = .next (effects is s) := by
  induction is generalizing s with
  | nil => rfl
  | cons i is ih => rw [execList, exec_eq_effect, effects_cons, ← ih]

theorem effects_frame {is : List Instr} (h : ∀ i ∈ is, i ≠ .encode) (s : State) :
    KeptByCommands s (effects is s) := by
  induction is generalizing s with
  | nil => constructor <;> rfl
  | cons i is ih =>
    obtain ⟨hi, his⟩ := List.forall_mem_cons.mp h
    exact (effect_frame hi s).trans (ih his _)

theorem wordEffect_of_decode {w : Command} {i : Instr} (h : decode w = .ok i) (s : State) :
    wordEffect w s = effect i s := by
  rw [wordEffect, h]

/-- The step that accepts a command (R48): ENCODE needs a drained serializer, no other command does. -/
theorem step_present {i : Instr} {s : State} (rest : List PortIn) (hwf : i.WellFormed)
    (hbusy : s.cbusy = false) (hcnt : i = .encode → s.cnt = 0) :
    step (s.withInputs (PortIn.present (encodeWord i) :: rest)) =
      .next ((effect i s).withInputs rest) := by
  have hdec := decode_encodeWord hwf
  have hacc : (s.withInputs (PortIn.present (encodeWord i) :: rest)).accepts
      (PortIn.present (encodeWord i)) = true := by
    refine (State.accepts_iff _ _).mpr ⟨rfl, rfl, hbusy, fun ⟨hop, hne⟩ => hne (hcnt ?_)⟩
    exact Except.ok.inj (hdec.symm.trans (decode_of_opField_encode hop))
  have hser : (s.withInputs rest).serialize (PortIn.present (encodeWord i)) = s.withInputs rest := by
    simp [State.serialize, State.handsOver, PortIn.present]
  rw [step_entry (State.withInputs_inputs _ _), hacc, State.withInputs_withInputs, hser]
  exact congrArg _ ((wordEffect_of_decode hdec _).trans (effect_withInputs i s rest))

/-- Commands other than ENCODE are accepted one a step, whatever the serializer holds (R90). -/
theorem runSteps_commands {is : List Instr} {s : State} (rest : List PortIn)
    (hwf : ∀ i ∈ is, i.WellFormed) (hne : ∀ i ∈ is, i ≠ .encode) (hbusy : s.cbusy = false) :
    runSteps is.length
        (s.withInputs (is.map (fun i => PortIn.present (encodeWord i)) ++ rest)) =
      .next ((effects is s).withInputs rest) := by
  induction is generalizing s with
  | nil => rfl
  | cons i is ih =>
    obtain ⟨hi, his⟩ := List.forall_mem_cons.mp hwf
    obtain ⟨ni, nis⟩ := List.forall_mem_cons.mp hne
    have hstep := step_present (is.map (fun i => PortIn.present (encodeWord i)) ++ rest) hi hbusy
      (fun e => absurd e ni)
    exact (runSteps_succ hstep).trans (ih his nis ((effect_frame ni s).cbusy.trans hbusy))

/-! ### HASH (30_encoding.md R56) -/

theorem chunksOfFour_flatten (bytes : List Byte) : (chunksOfFour bytes).flatten = bytes := by
  induction bytes using chunksOfFour.induct with
  | case1 b0 b1 b2 b3 rest ih => simp [chunksOfFour, ih]
  | case2 => rfl
  | case3 bytes h4 h0 => simp [chunksOfFour]

theorem chunksOfFour_wellFormed : ∀ bytes : List Byte,
    ∀ c ∈ chunksOfFour bytes, (Instr.absorb c).WellFormed
  | _ :: _ :: _ :: _ :: rest =>
    List.forall_mem_cons.mpr ⟨rfl, chunksOfFour_wellFormed rest⟩
  | [] => List.forall_mem_nil _
  | [_] | [_, _] | [_, _, _] => List.forall_mem_singleton.mpr rfl

theorem mem_hashCommands {seed : Word} {bytes : List Byte} {i : Instr} :
    i ∈ hashCommands seed bytes ↔
      i = .init seed ∨ (∃ c ∈ chunksOfFour bytes, i = .absorb c) ∨ i = .final := by
  simp [hashCommands, eq_comm]

theorem hashCommands_wellFormed (seed : Word) (bytes : List Byte) :
    ∀ i ∈ hashCommands seed bytes, i.WellFormed := by
  intro i hi
  rcases mem_hashCommands.mp hi with rfl | ⟨c, hc, rfl⟩ | rfl
  · rfl
  · exact chunksOfFour_wellFormed bytes c hc
  · rfl

theorem hashCommands_ne_encode (seed : Word) (bytes : List Byte) :
    ∀ i ∈ hashCommands seed bytes, i ≠ .encode := by
  intro i hi
  rcases mem_hashCommands.mp hi with rfl | ⟨c, _, rfl⟩ | rfl <;> exact Instr.noConfusion

/-- INIT begins the empty message (40_hash_engine.md R70, R71). -/
theorem beginMessage_holds (s : State) (seed : Word) : (s.beginMessage seed).HoldsMessage [] := by
  constructor <;> rfl

theorem foldl_absorbByte_holds {m : List Byte} {s : State} (bytes : List Byte)
    (h : s.HoldsMessage m) : (bytes.foldl absorbByte s).HoldsMessage (m ++ bytes) := by
  induction bytes generalizing m s with
  | nil => simpa using h
  | cons b bs ih => simpa using ih (absorbByte_holds b h)

theorem State.HoldsMessage.hashValue {m : List Byte} {s : State} (h : s.HoldsMessage m) :
    s.hashValue = hash64 m s.seed := by
  rw [State.hashValue, hash64, h.lanes, h.tail, h.len]

/-- ABSORBs absorb the bytes of their chunks in order, however they are cut (R72). -/
theorem effects_absorbs (chunks : List (List Byte)) (s : State) :
    effects (chunks.map .absorb) s = chunks.flatten.foldl absorbByte s := by
  rw [effects, List.foldl_map, List.foldl_flatten]
  rfl

/-- HASH leaves `hash64` of its bytes in `RESULT`. -/
theorem effects_hashCommands_result (seed : Word) (bytes : List Byte) (s : State) :
    (effects (hashCommands seed bytes) s).result = hash64 bytes seed := by
  have hholds := foldl_absorbByte_holds bytes (beginMessage_holds s seed)
  have hseed := (foldl_absorbByte_frame bytes (s.beginMessage seed)).seed
  rw [hashCommands, effects_cons, effects_append, effects_absorbs, chunksOfFour_flatten]
  exact hholds.hashValue.trans (congrArg _ hseed)

/-! ### Handshakes (41_base32_encoder.md R87, R91) -/

theorem step_take {s : State} (rest : List PortIn) (h : s.cnt ≠ 0) :
    step (s.withInputs (PortIn.take :: rest)) = .next (s.emit.withInputs rest) := by
  have hser : (s.withInputs rest).serialize PortIn.take = s.emit.withInputs rest :=
    if_pos ((State.handsOver_iff _ _).mpr ⟨rfl, h, rfl⟩)
  rw [step_entry (State.withInputs_inputs _ _), State.withInputs_withInputs, hser]
  rfl

/-- `s` when the first `n` characters of `encode(v)` have been handed over from it (R32 item 5). -/
def State.afterChars (s : State) (v : DWord) (n : Nat) : State :=
  { s with
    delivered := s.delivered ++ (base32 v).take n, sr := v <<< (5 * n)
    cnt := BitVec.ofNat 4 (13 - n) }

/-- ENCODE takes the snapshot, no character handed over yet (R86). -/
theorem State.startSerializer_eq_afterChars (s : State) :
    s.startSerializer = s.afterChars s.result 0 := by
  simp [State.startSerializer, State.afterChars]

theorem State.afterChars_emit (s : State) (v : DWord) {n : Nat} (h : n < 13) :
    (s.afterChars v n).emit = s.afterChars v (n + 1) := by
  have hcnt : BitVec.ofNat 4 (13 - n) - 1 = BitVec.ofNat 4 (13 - (n + 1)) := by bv_omega
  simp only [State.emit, State.handOver, State.nextChar, State.afterChars, topBits_shifted,
    shifted_succ, base32_take_succ v h, hcnt, List.append_assoc]

theorem State.afterChars_cnt_ne_zero (s : State) (v : DWord) {n : Nat} (h : n < 13) :
    (s.afterChars v n).cnt ≠ 0 := by
  simp only [State.afterChars]
  bv_omega

@[simp] theorem State.afterChars_result (s : State) (v : DWord) (n : Nat) :
    (s.afterChars v n).result = s.result := rfl
@[simp] theorem State.afterChars_ill (s : State) (v : DWord) (n : Nat) :
    (s.afterChars v n).ill = s.ill := rfl

theorem State.afterChars_cnt_drained (s : State) (v : DWord) : (s.afterChars v 13).cnt = 0 := rfl

theorem State.afterChars_delivered_all (s : State) (v : DWord) :
    (s.afterChars v 13).delivered = s.delivered ++ base32 v :=
  congrArg (s.delivered ++ ·) (List.take_of_length_le (length_base32 v).le)

/-- Handshakes deliver the next characters of the encoding, one a step. -/
theorem runSteps_takes (s : State) (v : DWord) (rest : List PortIn) {n k : Nat} (h : n + k ≤ 13) :
    runSteps k ((s.afterChars v n).withInputs (List.replicate k PortIn.take ++ rest)) =
      .next ((s.afterChars v (n + k)).withInputs rest) := by
  induction k generalizing n with
  | zero => rfl
  | succ k ih =>
    have hstep := step_take (List.replicate k PortIn.take ++ rest)
      (s.afterChars_cnt_ne_zero v (n := n) (by omega))
    rw [s.afterChars_emit v (by omega)] at hstep
    rw [List.replicate_succ, List.cons_append, runSteps_succ hstep, ih (by omega)]
    rw [Nat.add_right_comm, Nat.add_assoc]

/-- ENCODE with `CNT = 0` and thirteen handshakes deliver `encode(RESULT)` and drain the serializer. -/
theorem runSteps_encode_takes {s : State} (rest : List PortIn) (hbusy : s.cbusy = false)
    (hcnt : s.cnt = 0) :
    runSteps 14 (s.withInputs (PortIn.present (encodeWord .encode) ::
        (List.replicate 13 PortIn.take ++ rest))) =
      .next ((s.afterChars s.result 13).withInputs rest) := by
  have hstep := step_present (List.replicate 13 PortIn.take ++ rest) (i := .encode) rfl hbusy
    (fun _ => hcnt)
  rw [effect_encode_idle hcnt, s.startSerializer_eq_afterChars] at hstep
  exact (runSteps_succ hstep).trans (runSteps_takes s s.result rest (by omega))

/-! ### UNIQ (30_encoding.md R58) -/

theorem length_uniqEntries (bytes : List Byte) :
    (uniqEntries bytes).length = (hashCommands 0 bytes).length + 14 := by
  simp [uniqEntries]

/-- The entries of UNIQ are the commands of HASH, then ENCODE and the handshakes. -/
theorem uniqEntries_append (bytes : List Byte) (rest : List PortIn) :
    uniqEntries bytes ++ rest =
      (hashCommands 0 bytes).map (fun i => PortIn.present (encodeWord i)) ++
        (PortIn.present (encodeWord .encode) :: (List.replicate 13 PortIn.take ++ rest)) := by
  rw [uniqEntries, List.map_append, List.append_assoc, List.append_assoc]
  rfl

/-- UNIQ's entries run to the state HASH leaves, with the characters of its result handed over. -/
theorem runSteps_uniqEntries (bytes : List Byte) {s : State} (rest : List PortIn)
    (hbusy : s.cbusy = false) (hcnt : s.cnt = 0) :
    runSteps (uniqEntries bytes).length (s.withInputs (uniqEntries bytes ++ rest)) =
      .next (((effects (hashCommands 0 bytes) s).afterChars (hash64 bytes 0) 13).withInputs rest) := by
  have frame := effects_frame (hashCommands_ne_encode 0 bytes) s
  have hhash := runSteps_commands
    (PortIn.present (encodeWord .encode) :: (List.replicate 13 PortIn.take ++ rest))
    (hashCommands_wellFormed 0 bytes) (hashCommands_ne_encode 0 bytes) hbusy
  have hencode := runSteps_encode_takes rest (frame.cbusy.trans hbusy) (frame.cnt.trans hcnt)
  rw [length_uniqEntries, uniqEntries_append, runSteps_add hhash, hencode,
    effects_hashCommands_result]

end Sys2Proof.Machine
end

section
/-! The statements of 00_scope.md. -/

namespace Sys2Proof.Machine

/-- Settles O25: for a count below 32 the library's rotation does not reduce it. -/
theorem rotationIsCircular : Obligations.RotationIsCircular := by
  intro x r _ hr
  rw [BitVec.rotateLeft_def, Nat.mod_eq_of_lt (by omega)]
  rfl

/-- Settles O49: HASH leaves `hash64` in `RESULT` with the serializer still drained, ENCODE snapshots it,
and thirteen handshakes deliver the snapshot's characters. -/
theorem identifierIsDelivered : Obligations.IdentifierIsDelivered := by
  intro bytes s rest hcnt hbusy hin
  have hrun := runSteps_uniqEntries bytes rest hbusy hcnt
  rw [← hin] at hrun
  have frame := effects_frame (hashCommands_ne_encode 0 bytes) s
  refine ⟨_, hrun, State.withInputs_inputs _ _, ?_, ?_, ?_, ?_⟩
  · rw [State.withInputs_result, State.afterChars_result, effects_hashCommands_result]
  · rw [State.withInputs_delivered, State.afterChars_delivered_all, frame.delivered]
  · rw [State.withInputs_ill, State.afterChars_ill, frame.ill]
  · rw [State.withInputs_cnt, State.afterChars_cnt_drained]

end Sys2Proof.Machine
end

section
/-! SUPPORT. What the statements of 10_state.md rest on: what an entry consumed can do, the decoder row by
row, what an accepted word writes, the bytes an ABSORB stores, the ports, the invariants of R32, and the
states a host cannot tell apart (R30). -/

namespace Sys2Proof.Machine

/-! ### An entry consumed -/

/-- A handshake writes the serializer's registers and the characters delivered, and no other (R87). -/
theorem State.serialize_eq (s : State) (p : PortIn) :
    ∃ chars x n, s.serialize p = { s with delivered := chars, sr := x, cnt := n } := by
  rcases s.serialize_cases p with ⟨_, h⟩ | ⟨_, h⟩
  · exact ⟨_, _, _, h⟩
  · exact ⟨_, _, _, h⟩

@[simp] theorem State.serialize_ill (s : State) (p : PortIn) : (s.serialize p).ill = s.ill := by
  obtain ⟨_, _, _, h⟩ := s.serialize_eq p
  rw [h]

@[simp] theorem State.serialize_done (s : State) (p : PortIn) : (s.serialize p).done = s.done := by
  obtain ⟨_, _, _, h⟩ := s.serialize_eq p
  rw [h]

@[simp] theorem State.serialize_result (s : State) (p : PortIn) :
    (s.serialize p).result = s.result := by
  obtain ⟨_, _, _, h⟩ := s.serialize_eq p
  rw [h]

@[simp] theorem State.serialize_hashValue (s : State) (p : PortIn) :
    (s.serialize p).hashValue = s.hashValue := by
  obtain ⟨_, _, _, h⟩ := s.serialize_eq p
  rw [h]
  rfl

@[simp] theorem State.withInputs_hashValue (s : State) (rest : List PortIn) :
    (s.withInputs rest).hashValue = s.hashValue := rfl

/-- Everything a step that consumes an entry can do, case by case. -/
theorem step_entry_cases {s t : State} {p : PortIn} {rest : List PortIn} (hin : s.inputs = p :: rest)
    (hs : step s = .next t) :
    (p.rst = true ∧ t = (s.withInputs rest).applyReset) ∨
    (p.rst = false ∧ s.accepts p = true ∧
      t = wordEffect p.cmdData ((s.withInputs rest).serialize p)) ∨
    (p.rst = false ∧ s.accepts p = false ∧ t = (s.withInputs rest).serialize p) := by
  rw [step_entry hin] at hs
  rw [← Host.Outcome.next.inj hs]
  by_cases hr : p.rst = true
  · exact .inl ⟨hr, if_pos hr⟩
  · rw [if_neg hr]
    have hrst := Bool.eq_false_of_not_eq_true hr
    by_cases ha : s.accepts p = true
    · exact .inr (.inl ⟨hrst, ha, if_pos ha⟩)
    · exact .inr (.inr ⟨hrst, Bool.eq_false_of_not_eq_true ha, if_neg ha⟩)

/-- With `CBUSY = 0` an edge without reset refuses an ENCODE alone (R48). -/
theorem State.accepts_of_opField_ne {s : State} {p : PortIn} (hr : p.rst = false)
    (hbusy : s.cbusy = false) (hop : opField p.cmdData ≠ 0x10) : s.accepts p = p.cmdValid := by
  rw [Bool.eq_iff_iff, State.accepts_iff]
  exact ⟨fun h => h.1, fun hv => ⟨hv, hr, hbusy, fun h => hop h.1⟩⟩

/-- A word that is not accepted with `CBUSY = 0` and no reset: none is presented or it is ENCODE. -/
theorem State.not_accepts_cases {s : State} {p : PortIn} (hr : p.rst = false) (hbusy : s.cbusy = false)
    (ha : s.accepts p = false) : p.cmdValid = false ∨ opField p.cmdData = 0x10 := by
  by_cases hop : opField p.cmdData = 0x10
  · exact .inr hop
  · exact .inl ((State.accepts_of_opField_ne hr hbusy hop).symm.trans ha)

/-! ### The rows of the decoder -/

/-- The row of R49 that `decode` takes a word to, with the value of `OP` that selects it. -/
inductive DecodeRow (w : Command) : Except DecodeError Instr → Prop
  | nop (h : opField w = 0x00) : DecodeRow w (.ok .nop)
  | init (h : opField w = 0x01) : DecodeRow w (.ok (.init (dataField w)))
  | absorb (h : opField w ∈ [0x04, 0x05, 0x06, 0x07]) :
      DecodeRow w (.ok (.absorb (absorbBytes (absorbCount (opField w)) (dataField w))))
  | final (h : opField w = 0x08) : DecodeRow w (.ok .final)
  | encode (h : opField w = 0x10) : DecodeRow w (.ok .encode)
  | ldlo (h : opField w = 0x20) : DecodeRow w (.ok (.ldlo (dataField w)))
  | ldhi (h : opField w = 0x21) : DecodeRow w (.ok (.ldhi (dataField w)))
  | reserved (h : opField w ∉ [0x00, 0x01, 0x04, 0x05, 0x06, 0x07, 0x08, 0x10, 0x20, 0x21]) :
      DecodeRow w (.error (.reserved (opField w)))

/-- The values of `OP` under the mask of the ABSORB row. -/
theorem absorb_row_iff : ∀ op : BitVec 8, op &&& 0xFC = 0x04 ↔ op ∈ [0x04, 0x05, 0x06, 0x07] := by
  decide

theorem decode_row (w : Command) : DecodeRow w (decode w) := by
  unfold decode
  split_ifs with hnop hinit habsorb hfinal hencode hldlo hldhi
  · exact .nop hnop
  · exact .init hinit
  · exact .absorb ((absorb_row_iff _).mp habsorb)
  · exact .final hfinal
  · exact .encode hencode
  · exact .ldlo hldlo
  · exact .ldhi hldhi
  · rw [absorb_row_iff] at habsorb
    simp at habsorb
    exact .reserved (by simp; tauto)

/-! ### What the commands write -/

/-- ENCODE writes at most the serializer's registers (R86, R90). -/
theorem effect_encode_eq (s : State) : ∃ x n, effect .encode s = { s with sr := x, cnt := n } := by
  by_cases hcnt : s.cnt = 0
  · exact ⟨_, _, effect_encode_idle hcnt⟩
  · exact ⟨_, _, effect_encode_waits hcnt⟩

@[simp] theorem effect_encode_result (s : State) : (effect .encode s).result = s.result := by
  obtain ⟨_, _, h⟩ := effect_encode_eq s
  rw [h]

@[simp] theorem effect_encode_done (s : State) : (effect .encode s).done = s.done := by
  obtain ⟨_, _, h⟩ := effect_encode_eq s
  rw [h]

@[simp] theorem effect_absorb_result (bytes : List Byte) (s : State) :
    (effect (.absorb bytes) s).result = s.result :=
  (foldl_absorbByte_frame bytes s).result

@[simp] theorem effect_absorb_done (bytes : List Byte) (s : State) :
    (effect (.absorb bytes) s).done = s.done :=
  (foldl_absorbByte_frame bytes s).done

/-- No command touches `ILL` (R21). -/
theorem effect_ill (i : Instr) (s : State) : (effect i s).ill = s.ill := by
  cases i with
  | encode =>
    obtain ⟨_, _, h⟩ := effect_encode_eq s
    rw [h]
  | _ => exact (effect_frame (by simp) s).ill

/-- An accepted word sets `ILL` exactly when its `OP` is reserved (R21, R99). -/
theorem wordEffect_ill_iff (w : Command) (s : State) :
    (wordEffect w s).ill = true ↔ s.ill = true ∨
      opField w ∉ [0x00, 0x01, 0x04, 0x05, 0x06, 0x07, 0x08, 0x10, 0x20, 0x21] := by
  have row := decode_row w
  unfold wordEffect
  generalize decode w = d at row ⊢
  cases row with
  | reserved h => exact iff_of_true rfl (.inr h)
  | absorb h =>
    rw [effect_ill]
    simp at h
    rcases h with h | h | h | h <;> simp [h]
  | _ h => rw [effect_ill]; simp [h]

/-- What an accepted word leaves in `DONE` (R20). -/
theorem wordEffect_done (w : Command) (s : State) :
    (wordEffect w s).done =
      if opField w = 0x08 then true
      else if opField w = 0x20 ∨ opField w = 0x21 then false
      else s.done := by
  have row := decode_row w
  unfold wordEffect
  generalize decode w = d at row ⊢
  cases row with
  | absorb h =>
    simp at h
    rcases h with h | h | h | h <;> simp [h]
  | encode h => simp [h]
  | reserved h =>
    simp at h
    simp [h]
  | _ h => simp [h, effect]

/-- What an accepted word leaves in `RESULT` (R19). -/
theorem wordEffect_result (w : Command) (s : State) :
    (wordEffect w s).result =
      if opField w = 0x08 then s.hashValue
      else if opField w = 0x20 then withLowHalf s.result (dataField w)
      else if opField w = 0x21 then withHighHalf s.result (dataField w)
      else s.result := by
  have row := decode_row w
  unfold wordEffect
  generalize decode w = d at row ⊢
  cases row with
  | absorb h =>
    simp at h
    rcases h with h | h | h | h <;> simp [h]
  | encode h => simp [h]
  | reserved h =>
    simp at h
    simp [h]
  | _ h => simp [h, effect]

/-! ### Bytes absorbed one after the other (40_hash_engine.md R72, R73) -/

@[simp] theorem absorbByte_len (s : State) (b : Byte) : (absorbByte s b).len = s.len + 1 := by
  rcases absorbByte_cases s b with h | ⟨l, h⟩ <;> rw [h] <;> rfl

@[simp] theorem absorbByte_buf (s : State) (b : Byte) : (absorbByte s b).buf = s.bufWith b := by
  rcases absorbByte_cases s b with h | ⟨l, h⟩ <;> rw [h] <;> rfl

/-- `BCNT` advances modulo 8, the return to 0 after a block included. -/
@[simp] theorem absorbByte_bcnt (s : State) (b : Byte) : (absorbByte s b).bcnt = s.bcnt + 1 := by
  by_cases h : s.bcnt = 7
  · rw [absorbByte_completes h, State.closeBlock_bcnt, h]
    rfl
  · rw [absorbByte_buffers h, State.bufferByte_bcnt]

theorem foldl_absorbByte_len (bytes : List Byte) (s : State) :
    (bytes.foldl absorbByte s).len = s.len + BitVec.ofNat 32 bytes.length := by
  induction bytes generalizing s with
  | nil => simp
  | cons b bs ih =>
    rw [List.foldl_cons, ih, absorbByte_len, List.length_cons, BitVec.ofNat_add]
    ac_rfl

theorem foldl_absorbByte_bcnt (bytes : List Byte) (s : State) :
    (bytes.foldl absorbByte s).bcnt = s.bcnt + BitVec.ofNat 3 bytes.length := by
  induction bytes generalizing s with
  | nil => simp
  | cons b bs ih =>
    rw [List.foldl_cons, ih, absorbByte_bcnt, List.length_cons, BitVec.ofNat_add]
    ac_rfl

/-- A buffered byte follows the bytes held. -/
theorem absorbByte_tail_buffers {s : State} (b : Byte) (h : s.bcnt ≠ 7) :
    (absorbByte s b).tail = s.tail ++ [b] := by
  rw [← State.bufWith_take, State.tail, absorbByte_buf, absorbByte_bcnt, toNat_bcnt_succ h]

theorem State.tail_of_bcnt_zero {s : State} (h : s.bcnt = 0) : s.tail = [] := by
  rw [State.tail, h]
  rfl

/-- A completed block leaves no byte held. -/
theorem absorbByte_tail_completes {s : State} (b : Byte) (h : s.bcnt = 7) :
    (absorbByte s b).tail = [] :=
  State.tail_of_bcnt_zero (by rw [absorbByte_bcnt, h]; rfl)

theorem absorbByte_lanes_buffers {s : State} (b : Byte) (h : s.bcnt ≠ 7) :
    ((absorbByte s b).laneA, (absorbByte s b).laneB) = (s.laneA, s.laneB) := by
  rw [absorbByte_buffers h, State.bufferByte_laneA, State.bufferByte_laneB]

/-- A completed block is the bytes held and the new one. -/
theorem absorbByte_lanes_completes {s : State} (b : Byte) (h : s.bcnt = 7) :
    ((absorbByte s b).laneA, (absorbByte s b).laneB) =
      blockMix (s.laneA, s.laneB) (s.tail ++ [b]) := by
  rw [absorbByte_completes h, State.bufWith_full b h]
  rfl

/-- Bytes that complete at most one block: the lanes and the bytes held after them. -/
theorem foldl_absorbByte_message (bytes : List Byte) (s : State)
    (h : s.bcnt.toNat + bytes.length < 16) :
    ((bytes.foldl absorbByte s).laneA, (bytes.foldl absorbByte s).laneB) =
      (if s.bcnt.toNat + bytes.length < 8 then (s.laneA, s.laneB)
      else blockMix (s.laneA, s.laneB) (s.tail ++ bytes.take (8 - s.bcnt.toNat))) ∧
    (bytes.foldl absorbByte s).tail =
      (if s.bcnt.toNat + bytes.length < 8 then s.tail ++ bytes
      else bytes.drop (8 - s.bcnt.toNat)) := by
  induction bytes generalizing s with
  | nil =>
    have hlt : s.bcnt.toNat < 8 := s.bcnt.isLt
    simp [hlt]
  | cons b bs ih =>
    rw [List.length_cons] at h
    rw [List.foldl_cons, List.length_cons]
    by_cases h7 : s.bcnt = 7
    · have hn : s.bcnt.toNat = 7 := by rw [h7]; rfl
      have hn' : (absorbByte s b).bcnt.toNat = 0 := by rw [absorbByte_bcnt, h7]; rfl
      obtain ⟨hlanes, htail⟩ := ih (absorbByte s b) (by omega)
      have hfits : 0 + bs.length < 8 := by omega
      have hfull : ¬ 7 + (bs.length + 1) < 8 := by omega
      rw [hn', if_pos hfits] at hlanes htail
      rw [hn, if_neg hfull, if_neg hfull, hlanes, htail, absorbByte_lanes_completes b h7,
        absorbByte_tail_completes b h7]
      exact ⟨rfl, rfl⟩
    · have hn' : (absorbByte s b).bcnt.toNat = s.bcnt.toNat + 1 := by
        rw [absorbByte_bcnt, toNat_bcnt_succ h7]
      obtain ⟨hlanes, htail⟩ := ih (absorbByte s b) (by omega)
      have hroom : 8 - s.bcnt.toNat = 8 - (s.bcnt.toNat + 1) + 1 := by
        have := (s.bcnt + 1).isLt
        have := toNat_bcnt_succ h7
        omega
      rw [hlanes, htail, hn', absorbByte_lanes_buffers b h7, absorbByte_tail_buffers b h7, hroom,
        List.take_succ_cons, List.drop_succ_cons, Nat.add_right_comm, Nat.add_assoc,
        List.append_assoc, List.append_assoc]
      exact ⟨rfl, rfl⟩

/-- A byte is stored at `BCNT` alone. -/
theorem State.bufWith_getElem_ne (s : State) (b : Byte) {i : Nat} (hi : i < 8)
    (h : s.bcnt.toNat ≠ i) : (s.bufWith b)[i] = s.buf[i] :=
  Vector.getElem_set_ne _ _ h

/-- The bytes are stored from `BCNT` on, modulo 8, and nowhere else. -/
theorem foldl_absorbByte_buf_frame (bytes : List Byte) (s : State) {i : Nat} (hi : i < 8)
    (h : ∀ j, j < bytes.length → (s.bcnt.toNat + j) % 8 ≠ i) :
    (bytes.foldl absorbByte s).buf[i] = s.buf[i] := by
  induction bytes generalizing s with
  | nil => rfl
  | cons b bs ih =>
    have hfirst : s.bcnt.toNat ≠ i := by
      have := h 0 (by simp)
      rwa [Nat.add_zero, Nat.mod_eq_of_lt s.bcnt.isLt] at this
    have hrest : ∀ j, j < bs.length → ((absorbByte s b).bcnt.toNat + j) % 8 ≠ i := by
      intro j hj
      have := h (j + 1) (by simpa using hj)
      rw [absorbByte_bcnt, BitVec.toNat_add]
      simp
      omega
    rw [List.foldl_cons, ih _ hrest]
    simp only [absorbByte_buf]
    exact s.bufWith_getElem_ne b hi hfirst

/-! ### STATUS and the ports (10_state.md R26, R27) -/

/-- `STATUS` as a number, its fields weighted by their places (R26). -/
theorem State.status_toNat (s : State) :
    s.status.toNat = s.bcnt.toNat * 2 ^ 8 + s.cnt.toNat * 2 ^ 4 + s.cbusy.toNat * 2 ^ 3 +
      s.ill.toNat * 2 ^ 2 + s.done.toNat * 2 + s.ebusy.toNat := by
  simp only [State.status, toNat_append, BitVec.toNat_ofBool, BitVec.toNat_ofNat]
  omega

theorem State.status_flags (s : State) :
    s.status.getLsbD 0 = s.ebusy ∧ s.status.getLsbD 1 = s.done ∧ s.status.getLsbD 2 = s.ill ∧
      s.status.getLsbD 3 = s.cbusy := by
  simp only [State.status, BitVec.getLsbD_append]
  simp

/-- The fields of `STATUS` wider than a bit. -/
theorem State.status_fields (s : State) :
    s.status.extractLsb' 4 4 = s.cnt ∧ s.status.extractLsb' 8 3 = s.bcnt ∧
      s.status.extractLsb' 11 5 = 0 := by
  have hbcnt := s.bcnt.isLt
  have hcnt := s.cnt.isLt
  have hcbusy := s.cbusy.toNat_lt
  have hill := s.ill.toNat_lt
  have hdone := s.done.toNat_lt
  have hebusy := s.ebusy.toNat_lt
  refine ⟨?_, ?_, ?_⟩ <;> apply BitVec.eq_of_toNat_eq <;>
    simp only [BitVec.extractLsb'_toNat, Nat.shiftRight_eq_div_pow, s.status_toNat,
      BitVec.ofNat_eq_ofNat, BitVec.toNat_ofNat] <;>
    omega

theorem State.sample_chValid {s : State} {p : PortIn} (k : Nat) (hbusy : s.cbusy = false) :
    (s.sample k p).chValid = s.chValid p.rst := by
  cases hr : p.rst <;> simp [State.sample, State.chValid, hr, hbusy]

theorem State.sample_chData {s : State} {p : PortIn} (k : Nat) (hbusy : s.cbusy = false)
    (hr : p.rst = false) :
    (s.sample k p).chData = if s.cnt = 0 then 0 else s.nextChar := by
  simp [State.sample, State.chData, State.chValid, hr, hbusy]

/-! ### The invariants of R32 -/

/-- What writes none of `SR`, `CNT` and `CBUSY` needs only to keep `LEN` and `BCNT` in step. -/
theorem State.Inv.of_kept {s t : State} (h : s.Inv) (k : KeptByCommands s t)
    (hlen : t.len.toNat % 8 = t.bcnt.toNat) : t.Inv where
  cnt_le := by rw [k.cnt]; exact h.cnt_le
  not_busy := k.cbusy.trans h.not_busy
  sr_drained := by rw [k.cnt, k.sr]; exact h.sr_drained
  sr_shifted := by rw [k.cnt, k.sr]; exact h.sr_shifted
  len_mod := hlen

theorem State.Inv.withInputs {s : State} (h : s.Inv) (rest : List PortIn) : (s.withInputs rest).Inv :=
  h.of_kept ⟨rfl, rfl, rfl, rfl, rfl⟩ h.len_mod

theorem State.Inv.raiseIll {s : State} (h : s.Inv) : s.raiseIll.Inv :=
  ⟨h.cnt_le, h.not_busy, h.sr_drained, h.sr_shifted, h.len_mod⟩

/-- The reset event reaches the invariants from every state (R113). -/
theorem State.applyReset_inv (s : State) : s.applyReset.Inv where
  cnt_le := by rw [State.applyReset_cnt]; decide
  not_busy := rfl
  sr_drained := fun _ => rfl
  sr_shifted := ⟨0, by simp⟩
  len_mod := rfl

/-- The serializer takes the snapshot unshifted (R86). -/
theorem State.Inv.startSerializer {s : State} (h : s.Inv) : s.startSerializer.Inv where
  cnt_le := le_rfl
  not_busy := h.not_busy
  sr_drained := fun h0 => by simp at h0
  sr_shifted := ⟨s.result, by simp⟩
  len_mod := h.len_mod

/-- A handshake shifts `SR` by one character more (R87); the thirteenth shifts the last bit out. -/
theorem State.Inv.emit {s : State} (h : s.Inv) (hcnt : s.cnt ≠ 0) : s.emit.Inv := by
  obtain ⟨v, hv⟩ := h.sr_shifted
  have hle := h.cnt_le
  have hfall : s.emit.cnt.toNat = s.cnt.toNat - 1 := by
    show (s.cnt - 1).toNat = _
    bv_omega
  have hpos : s.cnt.toNat ≠ 0 := fun e => hcnt (BitVec.eq_of_toNat_eq e)
  have hsr : s.emit.sr = v <<< (5 * (13 - s.emit.cnt.toNat)) := by
    rw [hfall, show 13 - (s.cnt.toNat - 1) = 13 - s.cnt.toNat + 1 by omega, ← shifted_succ, ← hv]
    rfl
  refine ⟨by omega, h.not_busy, fun h0 => ?_, ⟨v, hsr⟩, h.len_mod⟩
  rw [hsr, h0]
  exact BitVec.shiftLeft_eq_zero (by decide)

theorem State.Inv.serialize {s : State} (h : s.Inv) (p : PortIn) : (s.serialize p).Inv := by
  rcases s.serialize_cases p with ⟨hover, e⟩ | ⟨_, e⟩
  · rw [e]
    exact h.emit ((State.handsOver_iff s p).mp hover).2.1
  · rw [e]
    exact h

/-- `LEN` and `BCNT` advance together (R32 item 6). -/
theorem len_mod_add {len : Word} {n : BitVec 3} (h : len.toNat % 8 = n.toNat) (k : Nat) :
    (len + BitVec.ofNat 32 k).toNat % 8 = (n + BitVec.ofNat 3 k).toNat := by
  simp only [BitVec.toNat_add, BitVec.toNat_ofNat]
  omega

theorem State.Inv.effect {s : State} (h : s.Inv) (i : Instr) : (effect i s).Inv := by
  cases i with
  | encode =>
    by_cases hcnt : s.cnt = 0
    · rw [effect_encode_idle hcnt]
      exact h.startSerializer
    · rw [effect_encode_waits hcnt]
      exact h
  | absorb bytes =>
    refine h.of_kept (effect_frame (by simp) s) ?_
    show (bytes.foldl absorbByte s).len.toNat % 8 = (bytes.foldl absorbByte s).bcnt.toNat
    rw [foldl_absorbByte_len, foldl_absorbByte_bcnt]
    exact len_mod_add h.len_mod _
  | init v => exact h.of_kept (effect_frame (by simp) s) rfl
  | final => exact h.of_kept (effect_frame (by simp) s) rfl
  | _ => exact h.of_kept (effect_frame (by simp) s) h.len_mod

theorem State.Inv.wordEffect {s : State} (h : s.Inv) (w : Command) : (wordEffect w s).Inv := by
  unfold Machine.wordEffect
  cases decode w with
  | ok i => exact h.effect i
  | error e => exact h.raiseIll

/-! ### States a host cannot tell apart (R30) -/

theorem State.SameButStale.refl (s : State) : s.SameButStale s := ⟨rfl, rfl⟩

/-- The two states are one but for the buffer, and hold the same bytes there. -/
theorem State.SameButStale.exists_buf {s t : State} (h : s.SameButStale t) :
    ∃ v : Vector Byte 8, t = { s with buf := v } ∧
      v.toList.take s.bcnt.toNat = s.buf.toList.take s.bcnt.toNat :=
  ⟨t.buf, h.1, h.2⟩

/-- Where no byte is held, any two buffers are stale. -/
theorem State.sameButStale_of_bcnt_zero {s : State} (v : Vector Byte 8) (h : s.bcnt = 0) :
    s.SameButStale { s with buf := v } := by
  refine ⟨rfl, ?_⟩
  rw [h]
  rfl

theorem State.SameButStale.bcnt {s t : State} (h : s.SameButStale t) : t.bcnt = s.bcnt := by
  rw [h.1]

theorem State.SameButStale.lanes {s t : State} (h : s.SameButStale t) :
    (t.laneA, t.laneB) = (s.laneA, s.laneB) := by
  rw [h.1]

theorem State.SameButStale.tail {s t : State} (h : s.SameButStale t) : t.tail = s.tail := by
  rw [State.tail, h.bcnt]
  exact h.2

theorem State.SameButStale.hashValue {s t : State} (h : s.SameButStale t) :
    t.hashValue = s.hashValue := by
  rw [State.hashValue, State.hashValue, h.tail, h.lanes, h.1]

/-- No port shows a byte of the buffer (R27). -/
theorem State.SameButStale.sample {s t : State} (h : s.SameButStale t) (k : Nat) (p : PortIn) :
    s.sample k p = t.sample k p := by
  rw [h.1]
  rfl

theorem State.SameButStale.accepts {s t : State} (h : s.SameButStale t) (p : PortIn) :
    t.accepts p = s.accepts p := by
  rw [h.1]
  rfl

theorem State.SameButStale.withInputs {s t : State} (h : s.SameButStale t) (rest : List PortIn) :
    (s.withInputs rest).SameButStale (t.withInputs rest) := by
  obtain ⟨v, rfl, hv⟩ := h.exists_buf
  exact ⟨rfl, hv⟩

theorem State.SameButStale.raiseIll {s t : State} (h : s.SameButStale t) :
    s.raiseIll.SameButStale t.raiseIll := by
  obtain ⟨v, rfl, hv⟩ := h.exists_buf
  exact ⟨rfl, hv⟩

/-- Reset draws the same free buffer for both. -/
theorem State.SameButStale.applyReset {s t : State} (h : s.SameButStale t) :
    s.applyReset.SameButStale t.applyReset := by
  obtain ⟨v, rfl, _⟩ := h.exists_buf
  exact State.SameButStale.refl _

theorem State.SameButStale.emit {s t : State} (h : s.SameButStale t) :
    s.emit.SameButStale t.emit := by
  obtain ⟨v, rfl, hv⟩ := h.exists_buf
  exact ⟨rfl, hv⟩

theorem State.SameButStale.startSerializer {s t : State} (h : s.SameButStale t) :
    s.startSerializer.SameButStale t.startSerializer := by
  obtain ⟨v, rfl, hv⟩ := h.exists_buf
  exact ⟨rfl, hv⟩

theorem State.SameButStale.serialize {s t : State} (h : s.SameButStale t) (p : PortIn) :
    (s.serialize p).SameButStale (t.serialize p) := by
  have hover : t.handsOver p = s.handsOver p := by
    rw [h.1]
    rfl
  unfold State.serialize
  rw [hover]
  split
  · exact h.emit
  · exact h

/-- A byte is stored over a stale one, or completes the same block (R73). -/
theorem State.SameButStale.absorbByte {s t : State} (h : s.SameButStale t) (b : Byte) :
    (absorbByte s b).SameButStale (absorbByte t b) := by
  by_cases h7 : s.bcnt = 7
  · have h7' : t.bcnt = 7 := h.bcnt.trans h7
    rw [absorbByte_completes h7, absorbByte_completes h7', State.bufWith_full b h7,
      State.bufWith_full b h7', h.tail, h.lanes]
    obtain ⟨v, rfl, _⟩ := h.exists_buf
    exact State.sameButStale_of_bcnt_zero _ rfl
  · have h7' : t.bcnt ≠ 7 := h.bcnt.trans_ne h7
    have htail : (Machine.absorbByte t b).tail = (Machine.absorbByte s b).tail := by
      rw [absorbByte_tail_buffers b h7, absorbByte_tail_buffers b h7', h.tail]
    rw [absorbByte_buffers h7, absorbByte_buffers h7'] at htail ⊢
    obtain ⟨v, rfl, _⟩ := h.exists_buf
    exact ⟨rfl, htail⟩

theorem State.SameButStale.absorb {s t : State} (h : s.SameButStale t) (bytes : List Byte) :
    (bytes.foldl Machine.absorbByte s).SameButStale (bytes.foldl Machine.absorbByte t) := by
  induction bytes generalizing s t with
  | nil => exact h
  | cons b bs ih => exact ih (h.absorbByte b)

theorem State.SameButStale.effect {s t : State} (h : s.SameButStale t) (i : Instr) :
    (effect i s).SameButStale (effect i t) := by
  cases i with
  | absorb bytes => exact h.absorb bytes
  | encode =>
    have hcnt : t.cnt = s.cnt := by rw [h.1]
    by_cases h0 : s.cnt = 0
    · rw [effect_encode_idle h0, effect_encode_idle (hcnt.trans h0)]
      exact h.startSerializer
    · rw [effect_encode_waits h0, effect_encode_waits (hcnt.trans_ne h0)]
      exact h
  | init seed =>
    obtain ⟨v, rfl, _⟩ := h.exists_buf
    exact State.sameButStale_of_bcnt_zero _ rfl
  | final =>
    show (s.finishMessage s.hashValue).SameButStale (t.finishMessage t.hashValue)
    rw [h.hashValue]
    obtain ⟨v, rfl, _⟩ := h.exists_buf
    exact State.sameButStale_of_bcnt_zero _ rfl
  | nop => exact h
  | _ =>
    obtain ⟨v, rfl, hv⟩ := h.exists_buf
    exact ⟨rfl, hv⟩

theorem State.SameButStale.wordEffect {s t : State} (h : s.SameButStale t) (w : Command) :
    (wordEffect w s).SameButStale (wordEffect w t) := by
  unfold Machine.wordEffect
  cases decode w with
  | ok i => exact h.effect i
  | error e => exact h.raiseIll

end Sys2Proof.Machine
end

section
/-! The statements of 10_state.md. -/

namespace Sys2Proof.Machine

/-- Settles O13: each port read from `State.sample`, acceptance and hand-over from the ports' lemmas. -/
theorem portsShowTheState : Obligations.PortsShowTheState := by
  refine ⟨fun s k p hbusy hr => ⟨?_, ?_, ?_, ?_, ?_, ?_⟩, fun s k p hbusy => ?_,
    fun s k p => s.accepts_eq_port p, fun s k p hbusy => ?_⟩
  · simp [State.sample, hbusy]
  · simp [State.sample, hbusy]
  · simp [State.sample_chValid k hbusy, State.chValid, hr]
  · intro h
    rw [State.sample_chData k hbusy hr, if_neg h, State.nextChar]
  · intro h
    rw [State.sample_chData k hbusy hr, if_pos h]
  · exact (s.cmdReadyPort_iff p).trans ⟨fun h => h.2.2, fun h => ⟨hr, hbusy, h⟩⟩
  · refine Bool.eq_false_iff.mpr fun h => ?_
    obtain ⟨_, hfree, _⟩ := (s.cmdReadyPort_iff p).mp h
    rw [hbusy] at hfree
    contradiction
  · rw [State.sample_chValid k hbusy, State.handsOver]

/-- Settles O14: no free value is drawn, since `CBUSY` is 0 after reset. -/
theorem resetValues : Obligations.ResetValues := by
  refine ⟨rfl, rfl, rfl, rfl, rfl, rfl, rfl, rfl, rfl, rfl, rfl, rfl, fun k p hr => ?_⟩
  have hready : State.reset.cmdReadyPort p = true :=
    (State.cmdReadyPort_iff _ p).mpr ⟨hr, rfl, fun h => h.2.2 rfl⟩
  rw [State.sample, hready, hr]
  rfl

/-- Settles O15: the fields of `STATUS` do not overlap. -/
theorem statusFields : Obligations.StatusFields := by
  intro s
  obtain ⟨hebusy, hdone, hill, hcbusy⟩ := s.status_flags
  refine ⟨?_, hdone, hill, hcbusy, s.status_fields⟩
  rw [hebusy, State.ebusy]
  exact bne_iff_ne

/-- Settles O16: an empty serializer is the value 0, shifted. -/
theorem resetMeetsInvariants : Obligations.ResetMeetsInvariants where
  cnt_le := by decide
  not_busy := rfl
  sr_drained := fun _ => rfl
  sr_shifted := ⟨0, rfl⟩
  len_mod := rfl

/-- Settles O17: every part of an edge keeps the invariants, and so does their sequence. -/
theorem stepKeepsInvariants : Obligations.StepKeepsInvariants := by
  intro s t h hs
  cases hin : s.inputs with
  | nil =>
    rw [step_idle hin] at hs
    exact Host.Outcome.next.inj hs ▸ h
  | cons p rest =>
    rcases step_entry_cases hin hs with ⟨_, rfl⟩ | ⟨_, _, rfl⟩ | ⟨_, _, rfl⟩
    · exact State.applyReset_inv _
    · exact ((h.withInputs rest).serialize p).wordEffect p.cmdData
    · exact (h.withInputs rest).serialize p

/-- Settles O18: the two states take the same branch of the step, and every part of an edge keeps them
the same but for stale bytes. -/
theorem staleBufferNeverSeen : Obligations.StaleBufferNeverSeen := by
  intro s t h
  refine ⟨h.sample, ?_⟩
  have hinputs : t.inputs = s.inputs := by rw [h.1]
  cases hin : s.inputs with
  | nil => exact ⟨s, t, step_idle hin, step_idle (hinputs.trans hin), h⟩
  | cons p rest =>
    refine ⟨_, _, step_entry hin, step_entry (hinputs.trans hin), ?_⟩
    rw [h.accepts]
    split_ifs
    · exact (h.withInputs rest).applyReset
    · exact ((h.withInputs rest).serialize p).wordEffect p.cmdData
    · exact (h.withInputs rest).serialize p

/-- Settles O19: an accepted word sets `ILL` exactly when it is reserved, and with `CBUSY = 0` every reserved
one presented is accepted. -/
theorem illIsSticky : Obligations.IllIsSticky := by
  intro s t p rest hin hs
  rcases step_entry_cases hin hs with ⟨hr, rfl⟩ | ⟨hr, ha, rfl⟩ | ⟨hr, ha, rfl⟩
  · simp [hr]
  · obtain ⟨hv, _, hbusy, _⟩ := (State.accepts_iff s p).mp ha
    rw [wordEffect_ill_iff, State.serialize_ill, State.withInputs_ill]
    simp only [hr, hbusy, hv, true_and]
  · rw [State.serialize_ill, State.withInputs_ill]
    refine ⟨fun h => ⟨hr, .inl h⟩, ?_⟩
    rintro ⟨-, h | ⟨hbusy, hv, hop⟩⟩
    · exact h
    · rcases State.not_accepts_cases hr hbusy ha with hv' | hop'
      · rw [hv] at hv'
        contradiction
      · exact absurd (by simp [hop']) hop

/-- Settles O20: a refused word is none or an ENCODE, and neither selects a row that writes `DONE`. -/
theorem doneFollowsLastWrite : Obligations.DoneFollowsLastWrite := by
  intro s t p rest hin hbusy hs
  rcases step_entry_cases hin hs with ⟨hr, rfl⟩ | ⟨hr, ha, rfl⟩ | ⟨hr, ha, rfl⟩
  · simp [hr]
  · have hv := ((State.accepts_iff s p).mp ha).1
    simp [hr, hv, wordEffect_done]
  · rcases State.not_accepts_cases hr hbusy ha with hv | hop
    · simp [hr, hv]
    · simp [hr, hop]

/-- Settles O21: as for `DONE`, with the handshake of the same edge leaving `RESULT` and the message alone. -/
theorem resultWriters : Obligations.ResultWriters := by
  intro s t p rest hin hbusy hs
  rcases step_entry_cases hin hs with ⟨hr, rfl⟩ | ⟨hr, ha, rfl⟩ | ⟨hr, ha, rfl⟩
  · simp [hr]
  · have hv := ((State.accepts_iff s p).mp ha).1
    rw [wordEffect_result, State.serialize_hashValue, State.withInputs_hashValue, State.serialize_result,
      State.withInputs_result]
    simp [hr, hv, State.hashValue, State.tail, withLowHalf, withHighHalf, highHalf, lowHalf, dataField]
  · rcases State.not_accepts_cases hr hbusy ha with hv | hop
    · simp [hr, hv]
    · simp [hr, hop]

/-- Settles O22: command by command; only ABSORB needs an induction, over its bytes. -/
theorem commandFrame : Obligations.CommandFrame := by
  intro i s t hs
  rw [exec_eq_effect] at hs
  obtain rfl := Host.Outcome.next.inj hs
  cases i with
  | absorb bytes =>
    have frame := foldl_absorbByte_frame bytes s
    exact ⟨frame.ill, frame.cbusy, frame.inputs, frame.delivered, frame.draws, fun _ => frame.seed,
      fun h => absurd rfl (h bytes), fun _ h => absurd rfl (h bytes),
      fun _ _ _ => ⟨frame.result, frame.done⟩, fun _ => ⟨frame.sr, frame.cnt⟩⟩
  | encode =>
    obtain ⟨x, n, h⟩ := effect_encode_eq s
    simp [h]
  | _ => simp [effect]

/-- Settles O32: by induction on the bytes, which complete one block at most. -/
theorem absorbFillsBuffer : Obligations.AbsorbFillsBuffer := by
  intro bytes s _ h4
  have hn := s.bcnt.isLt
  obtain ⟨hlanes, htail⟩ := foldl_absorbByte_message bytes s (by omega)
  have frame := foldl_absorbByte_frame bytes s
  exact ⟨_, exec_absorb bytes s, foldl_absorbByte_len bytes s, foldl_absorbByte_bcnt bytes s,
    hlanes, htail, fun i hi h => foldl_absorbByte_buf_frame bytes s hi h, frame.seed, frame.result,
    frame.done, frame.ill, frame.sr, frame.cnt, frame.cbusy, frame.inputs, frame.delivered,
    frame.draws⟩

end Sys2Proof.Machine
end

section
/-! SUPPORT. What the statements of 20_memory.md rest on: a command other than ENCODE and the serializer's
registers stand apart (R42), so it commutes with the handshake of an edge (R103). -/

namespace Sys2Proof.Machine

/-! ### A command other than ENCODE does not see the serializer -/

/-- `s` with the fields a handshake writes replaced (R87): the characters delivered, `SR` and `CNT`. -/
def State.withSerializer (s : State) (chars : List Byte) (x : DWord) (n : BitVec 4) : State :=
  { s with delivered := chars, sr := x, cnt := n }

section
variable (chars : List Byte) (x : DWord) (n : BitVec 4)

theorem absorbByte_withSerializer (s : State) (b : Byte) :
    absorbByte (s.withSerializer chars x n) b = (absorbByte s b).withSerializer chars x n := by
  by_cases h : s.bcnt = 7
  · rw [absorbByte_completes h, absorbByte_completes (s := s.withSerializer chars x n) h]
    rfl
  · rw [absorbByte_buffers h, absorbByte_buffers (s := s.withSerializer chars x n) h]
    rfl

theorem foldl_absorbByte_withSerializer (bytes : List Byte) (s : State) :
    bytes.foldl absorbByte (s.withSerializer chars x n) =
      (bytes.foldl absorbByte s).withSerializer chars x n := by
  induction bytes generalizing s with
  | nil => rfl
  | cons b bs ih => rw [List.foldl_cons, List.foldl_cons, absorbByte_withSerializer, ih]

theorem effect_withSerializer {i : Instr} (h : i ≠ .encode) (s : State) :
    effect i (s.withSerializer chars x n) = (effect i s).withSerializer chars x n := by
  cases i with
  | absorb bytes => exact foldl_absorbByte_withSerializer chars x n bytes s
  | encode => exact absurd rfl h
  | _ => rfl

end

/-! ### Words that are not an ENCODE -/

/-- Everything a word with another opcode than ENCODE's can do: a command other than ENCODE, or ILL. -/
theorem wordEffect_cases {w : Command} (hop : opField w ≠ 0x10) :
    (∃ i, i ≠ .encode ∧ ∀ s, wordEffect w s = effect i s) ∨ ∀ s, wordEffect w s = s.raiseIll := by
  have row := decode_row w
  unfold wordEffect
  generalize decode w = d at row ⊢
  cases row with
  | encode h => exact absurd h hop
  | reserved => exact .inr fun _ => rfl
  | _ => exact .inl ⟨_, Instr.noConfusion, fun _ => rfl⟩

theorem wordEffect_withInputs (w : Command) (s : State) (rest : List PortIn) :
    wordEffect w (s.withInputs rest) = (wordEffect w s).withInputs rest := by
  unfold wordEffect
  cases decode w with
  | ok i => exact effect_withInputs i s rest
  | error e => rfl

/-- A word that is not an ENCODE leaves the serializer as it is. -/
theorem wordEffect_keeps_serializer {w : Command} (hop : opField w ≠ 0x10) (s : State) :
    (wordEffect w s).delivered = s.delivered ∧ (wordEffect w s).sr = s.sr ∧
      (wordEffect w s).cnt = s.cnt := by
  rcases wordEffect_cases hop with ⟨i, hi, h⟩ | h
  · have frame := effect_frame hi s
    rw [h]
    exact ⟨frame.delivered, frame.sr, frame.cnt⟩
  · rw [h]
    exact ⟨rfl, rfl, rfl⟩

theorem wordEffect_withSerializer {w : Command} (hop : opField w ≠ 0x10) (s : State)
    (chars : List Byte) (x : DWord) (n : BitVec 4) :
    wordEffect w (s.withSerializer chars x n) = (wordEffect w s).withSerializer chars x n := by
  rcases wordEffect_cases hop with ⟨i, hi, h⟩ | h
  · rw [h, h]
    exact effect_withSerializer chars x n hi s
  · rw [h, h]
    rfl

/-! ### The handshake of an edge -/

theorem State.emit_eq_withSerializer (s : State) :
    s.emit = s.withSerializer (s.delivered ++ [s.nextChar]) (s.sr <<< 5) (s.cnt - 1) := rfl

theorem State.serialize_withInputs (s : State) (rest : List PortIn) (p : PortIn) :
    (s.withInputs rest).serialize p = (s.serialize p).withInputs rest := by
  rw [State.serialize, State.serialize, apply_ite (State.withInputs · rest)]
  rfl

@[simp] theorem State.serialize_cbusy (s : State) (p : PortIn) :
    (s.serialize p).cbusy = s.cbusy := by
  obtain ⟨_, _, _, h⟩ := s.serialize_eq p
  rw [h]

/-- Without `ch_ready` no character is handed over. -/
theorem State.serialize_of_not_chReady (s : State) {p : PortIn} (h : p.chReady = false) :
    s.serialize p = s := by
  simp [State.serialize, State.handsOver, h]

/-- The effect of a word that is not an ENCODE and the handshake of an edge commute (R103). -/
theorem wordEffect_serialize {w : Command} (hop : opField w ≠ 0x10) (s : State) (p : PortIn) :
    wordEffect w (s.serialize p) = (wordEffect w s).serialize p := by
  obtain ⟨hdelivered, hsr, hcnt⟩ := wordEffect_keeps_serializer hop s
  have hover : (wordEffect w s).handsOver p = s.handsOver p := by
    rw [State.handsOver, State.chValid, hcnt, State.handsOver, State.chValid]
  have hemit : wordEffect w s.emit = (wordEffect w s).emit := by
    rw [s.emit_eq_withSerializer, wordEffect_withSerializer hop, State.emit_eq_withSerializer,
      State.nextChar, State.nextChar, hdelivered, hsr, hcnt]
  rw [State.serialize, State.serialize, hover, apply_ite (wordEffect w), hemit]

/-! ### Steps that consume an entry without reset -/

/-- With no command presented, an edge is its handshake. -/
theorem step_no_command (s : State) {p : PortIn} (rest : List PortIn) (hr : p.rst = false)
    (hv : p.cmdValid = false) :
    step (s.withInputs (p :: rest)) = .next ((s.serialize p).withInputs rest) := by
  have ha : (s.withInputs (p :: rest)).accepts p = false := by simp [State.accepts, hv]
  rw [step_entry (State.withInputs_inputs _ _), State.withInputs_withInputs,
    State.serialize_withInputs, hr, ha]
  rfl

/-- A word that is not an ENCODE is accepted whatever the serializer holds, after the edge's handshake. -/
theorem step_word {s : State} {p : PortIn} (rest : List PortIn) (hr : p.rst = false)
    (hv : p.cmdValid = true) (hbusy : s.cbusy = false) (hop : opField p.cmdData ≠ 0x10) :
    step (s.withInputs (p :: rest)) =
      .next ((wordEffect p.cmdData (s.serialize p)).withInputs rest) := by
  have ha : (s.withInputs (p :: rest)).accepts p = true :=
    (State.accepts_of_opField_ne hr hbusy hop).trans hv
  rw [step_entry (State.withInputs_inputs _ _), State.withInputs_withInputs,
    State.serialize_withInputs, wordEffect_withInputs, hr, ha]
  rfl

/-- With `ch_ready` low the word alone acts. -/
theorem step_present_word {w : Command} {s : State} (rest : List PortIn) (hbusy : s.cbusy = false)
    (hop : opField w ≠ 0x10) :
    step (s.withInputs (PortIn.present w :: rest)) = .next ((wordEffect w s).withInputs rest) := by
  have h := step_word (p := PortIn.present w) rest rfl rfl hbusy hop
  rwa [State.serialize_of_not_chReady s rfl] at h

end Sys2Proof.Machine
end

section
/-! The statements of 20_memory.md. -/

namespace Sys2Proof.Machine

/-- Settles O11: the word's effect commutes with the handshake, so all three schedules end in the same
state. -/
theorem interleavingsAgree : Obligations.InterleavingsAgree := by
  intro s w rest hop hbusy
  have hcommandFirst : runSteps 2 (s.withInputs (PortIn.present w :: PortIn.take :: rest)) =
      .next ((wordEffect w (s.serialize PortIn.take)).withInputs rest) := by
    rw [runSteps_succ (step_present_word _ hbusy hop), runSteps_succ (step_no_command _ rest rfl rfl),
      ← wordEffect_serialize hop, runSteps_zero]
  have htakeFirst : runSteps 2 (s.withInputs (PortIn.take :: PortIn.present w :: rest)) =
      .next ((wordEffect w (s.serialize PortIn.take)).withInputs rest) := by
    have hbusy' := (s.serialize_cbusy PortIn.take).trans hbusy
    rw [runSteps_succ (step_no_command s _ rfl rfl), runSteps_succ (step_present_word rest hbusy' hop),
      runSteps_zero]
  have honeEdge := step_word (s := s) (p := { PortIn.present w with chReady := true }) rest rfl rfl
    hbusy hop
  exact ⟨hcommandFirst.trans htakeFirst.symm, honeEdge.trans htakeFirst.symm⟩

/-- Settles O23: `SR` and `CNT` replaced before the command are the same replacement after it. -/
theorem commandsIgnoreSerializer : Obligations.CommandsIgnoreSerializer := by
  intro i s x y hi
  have frame := effect_frame hi s
  have hrepl : (effect i s).withSerializer s.delivered x y = { effect i s with sr := x, cnt := y } := by
    rw [← frame.delivered]
    rfl
  refine ⟨effect i s, exec_eq_effect i s, frame.sr, frame.cnt, (exec_eq_effect i _).trans ?_⟩
  exact congrArg _ ((effect_withSerializer s.delivered x y hi s).trans hrepl)

/-- Settles O35: the bytes of the chunks are absorbed one after the other, and each extends the message. -/
theorem absorbExtendsMessage : Obligations.AbsorbExtendsMessage := by
  intro m chunks s hholds _
  refine ⟨chunks.flatten.foldl absorbByte s, ?_, foldl_absorbByte_holds _ hholds,
    (foldl_absorbByte_frame _ s).seed⟩
  rw [execList_eq_effects, effects_absorbs]

end Sys2Proof.Machine
end

section
/-! SUPPORT. What the statements of 30_encoding.md rest on: the bits of a command word and of its
fields, the decoder row by row, what the entry of an accepted and of a refused command does (R48), the
commands HASH expands to (R56), and the halves of a 64-bit value (R57). -/

namespace Sys2Proof.Machine

/-! ### The bits of a command word (R47, R50) -/

/-- A word is its two fields. -/
theorem word_fields (w : Command) : (opField w ++ dataField w : Command) = w :=
  BitVec.extractLsb'_append_extractLsb' (w := 8) (len := 32)

theorem getLsbD_commandWord (op : BitVec 8) (data : Word) {k : Nat} (hk : k < 32) :
    (commandWord op data).getLsbD k = data.getLsbD k :=
  BitVec.getLsbD_append.trans (if_pos hk)

theorem getLsbD_dataField (w : Command) {k : Nat} (hk : k < 32) :
    (dataField w).getLsbD k = w.getLsbD k := by
  simp [dataField, hk]

/-- Bit `k` of DATA stands in its byte `k / 8`. -/
theorem getLsbD_dataByte (data : Word) (k : Nat) :
    (dataByte data (k / 8)).getLsbD (k % 8) = data.getLsbD k := by
  simp [dataByte, Nat.mod_lt, Nat.div_add_mod]

theorem length_absorbBytes (n : Nat) (data : Word) : (absorbBytes n data).length = n := by
  simp [absorbBytes]

/-- Assembling the bytes taken out of DATA gives its low bits back. -/
theorem getLsbD_le32_absorbBytes (data : Word) {n k : Nat} (hn : n ≤ 4) (hk : k < 8 * n) :
    (le32 (absorbBytes n data)).getLsbD k = data.getLsbD k := by
  have hlen := length_absorbBytes n data
  rw [← getLsbD_dataByte, dataByte_le32 _ (k / 8) (by omega) (by omega), ← getLsbD_dataByte data]
  simp [absorbBytes]

/-- The bits above the assembled bytes are 0. -/
theorem getLsbD_le32_above {bytes : List Byte} {k : Nat} (h : 8 * bytes.length ≤ k) (hk : k < 32) :
    (le32 bytes).getLsbD k = false := by
  obtain ⟨_, hbound⟩ := toNat_le32_cons 0 bytes (by omega)
  exact Nat.testBit_lt_two_pow (hbound.trans_le (Nat.pow_le_pow_right (by decide) h))

/-- An ABSORB of `n` bytes reads the low `8n` bits of DATA alone (R51). -/
theorem absorbBytes_congr {n : Nat} {data data' : Word}
    (h : ∀ k, k < 8 * n → data.getLsbD k = data'.getLsbD k) :
    absorbBytes n data = absorbBytes n data' := by
  refine List.map_congr_left fun i hi => BitVec.eq_of_getLsbD_eq fun j hj => ?_
  have hin := List.mem_range.mp hi
  simp [dataByte, hj, h (8 * i + j) (by omega)]

/-! ### The rows of the decoder, from the value of `OP` (R49) -/

/-- The values of `OP` in the ABSORB row: the byte count they give, and the encoder's way back. -/
theorem absorb_row_count : ∀ op : BitVec 8, op ∈ [0x04, 0x05, 0x06, 0x07] →
    1 ≤ absorbCount op ∧ absorbCount op ≤ 4 ∧
      0x04 + BitVec.ofNat 8 (absorbCount op - 1) = op := by
  decide

theorem absorbCount_eq_masked : ∀ op : BitVec 8, absorbCount op = (op &&& 0x03).toNat + 1 := by
  decide

/-- The row `OP` selects is what `decode` answers: the converse of `decode_row`. -/
theorem DecodeRow.decode_eq {w : Command} {d : Except DecodeError Instr} (row : DecodeRow w d) :
    decode w = d := by
  unfold decode
  cases row with
  | absorb h =>
    have hmask := (absorb_row_iff _).mpr h
    rw [if_neg (fun e => by simp [e] at h), if_neg (fun e => by simp [e] at h), if_pos hmask]
  | reserved h =>
    have hmask := mt (absorb_row_iff _).mp (fun hmem => h (by simp at hmem ⊢; tauto))
    simp at h
    simpa [h] using hmask
  | _ h => simp [h]

/-- A word decodes exactly when its `OP` is one of the ten. -/
theorem decode_isSome (w : Command) : (decode w).toOption.isSome =
    decide (opField w ∈ [0x00, 0x01, 0x04, 0x05, 0x06, 0x07, 0x08, 0x10, 0x20, 0x21]) := by
  have row := decode_row w
  generalize decode w = d at row ⊢
  cases row with
  | reserved h => rw [decide_eq_false h]; rfl
  | absorb h =>
    refine (decide_eq_true ?_).symm
    simp at h ⊢
    tauto
  | _ h => rw [h]; rfl

theorem count_defined_opcodes : ((List.range 256).filter fun op =>
    (decode (BitVec.ofNat 8 op ++ 0#32)).toOption.isSome).length = 10 := by
  simp only [decode_isSome, opField_word]
  decide

/-! ### What the entry of a command does (R48) -/

/-- `cmd_ready` for a presented word. -/
theorem State.cmdReady_iff (s : State) (rst : Bool) (w : Command) :
    s.cmdReady rst w = true ↔
      rst = false ∧ s.cbusy = false ∧ ¬(opField w = 0x10 ∧ s.cnt ≠ 0) := by
  simp [State.cmdReady, and_assoc]
  tauto

/-- ENCODE is not ready while the serializer holds characters (R90). -/
theorem State.cmdReady_encode_waits {s : State} {w : Command} (rst : Bool) (hop : opField w = 0x10)
    (hcnt : s.cnt ≠ 0) : s.cmdReady rst w = false := by
  refine Bool.eq_false_iff.mpr fun hready => ?_
  obtain ⟨_, _, henc⟩ := (s.cmdReady_iff rst w).mp hready
  exact henc ⟨hop, hcnt⟩

/-- Every other word is ready whatever the serializer holds. -/
theorem State.cmdReady_of_opField_ne {s : State} {w : Command} (hop : opField w ≠ 0x10)
    (hbusy : s.cbusy = false) : s.cmdReady false w = true :=
  (s.cmdReady_iff false w).mpr ⟨rfl, hbusy, fun h => hop h.1⟩

/-- An entry without `cmd_ready` is not accepted. -/
theorem State.accepts_of_not_cmdReady {s : State} {p : PortIn}
    (h : s.cmdReady p.rst p.cmdData = false) : s.accepts p = false := by
  rw [State.accepts, h, Bool.and_false]

theorem step_accepted {s : State} {p : PortIn} {rest : List PortIn} (hin : s.inputs = p :: rest)
    (ha : s.accepts p = true) :
    step s = .next (wordEffect p.cmdData ((s.withInputs rest).serialize p)) := by
  obtain ⟨_, hr, _⟩ := (s.accepts_iff p).mp ha
  simp [step_entry hin, hr, ha]

theorem step_not_accepted {s : State} {p : PortIn} {rest : List PortIn} (hin : s.inputs = p :: rest)
    (hr : p.rst = false) (ha : s.accepts p = false) :
    step s = .next ((s.withInputs rest).serialize p) := by
  simp [step_entry hin, hr, ha]

/-- Without `cmd_ready` an entry does what it does with no command presented, reset included. -/
theorem step_of_not_cmdReady (s : State) (p : PortIn) (rest : List PortIn)
    (h : s.cmdReady p.rst p.cmdData = false) :
    step (s.withInputs (p :: rest)) =
      step (s.withInputs ({ p with cmdValid := false } :: rest)) := by
  have ha : (s.withInputs (p :: rest)).accepts p = false :=
    State.accepts_of_not_cmdReady h
  rw [step_entry (State.withInputs_inputs _ _), step_entry (State.withInputs_inputs _ _), ha]
  rfl

/-- The handshake of an edge without reset, register by register (R87). -/
theorem State.serialize_eq_ite (s : State) {p : PortIn} (hr : p.rst = false) :
    s.serialize p = if p.chReady = true ∧ s.cnt ≠ 0 then
      { s with
        delivered := s.delivered ++ [rom (s.sr.extractLsb' 59 5)]
        sr := s.sr <<< 5, cnt := s.cnt - 1 }
    else s := by
  have hiff : s.handsOver p = true ↔ p.chReady = true ∧ s.cnt ≠ 0 := by
    rw [s.handsOver_iff p]
    tauto
  rw [State.serialize, if_congr hiff rfl rfl]
  rfl

theorem wordEffect_of_error {w : Command} {e : DecodeError} (h : decode w = .error e) (s : State) :
    wordEffect w s = s.raiseIll := by
  rw [wordEffect, h]

/-- The reserved ranges of R52 hold none of the ten values of R49. -/
theorem not_defined_of_reserved_range : ∀ op : BitVec 8,
    (0x02 ≤ op.toNat ∧ op.toNat ≤ 0x03) ∨ (0x09 ≤ op.toNat ∧ op.toNat ≤ 0x0F) ∨
      (0x11 ≤ op.toNat ∧ op.toNat ≤ 0x1F) ∨ (0x22 ≤ op.toNat ∧ op.toNat ≤ 0xFF) →
    op ∉ [0x00, 0x01, 0x04, 0x05, 0x06, 0x07, 0x08, 0x10, 0x20, 0x21] := by
  decide

/-! ### A host that presents ENCODE and takes no character (R90) -/

/-- No reset, no handshake, and ENCODE in `cmd_data`. -/
def PortIn.OnlyEncodes (p : PortIn) : Prop :=
  p.rst = false ∧ p.chReady = false ∧ opField p.cmdData = 0x10

theorem step_only_encodes {s : State} (hcnt : s.cnt ≠ 0) (h : ∀ p ∈ s.inputs, p.OnlyEncodes) :
    step s = .next (s.withInputs (s.inputs.drop 1)) := by
  cases hin : s.inputs with
  | nil =>
    rw [step_idle hin, List.drop_nil, ← hin]
    rfl
  | cons p rest =>
    obtain ⟨hr, hch, hop⟩ := h p (by simp [hin])
    have ha := State.accepts_of_not_cmdReady (State.cmdReady_encode_waits p.rst hop hcnt)
    rw [step_not_accepted hin hr ha, State.serialize_of_not_chReady _ hch]
    rfl

theorem runSteps_only_encodes {s : State} (hcnt : s.cnt ≠ 0) (h : ∀ p ∈ s.inputs, p.OnlyEncodes)
    (k : Nat) : runSteps k s = .next (s.withInputs (s.inputs.drop k)) := by
  induction k generalizing s with
  | zero => rfl
  | succ k ih =>
    have hrest : ∀ p ∈ s.inputs.drop 1, p.OnlyEncodes := fun p hp => h p (List.mem_of_mem_drop hp)
    have hrun := ih (s := s.withInputs (s.inputs.drop 1)) hcnt hrest
    rw [runSteps_succ (step_only_encodes hcnt h), hrun, State.withInputs_inputs, List.drop_drop,
      Nat.add_comm 1]
    rfl

/-! ### HASH (R56) -/

theorem length_chunksOfFour : ∀ bytes : List Byte,
    (chunksOfFour bytes).length = (bytes.length + 3) / 4
  | _ :: _ :: _ :: _ :: rest => by
    simp only [chunksOfFour, List.length_cons, length_chunksOfFour rest]
    omega
  | [] | [_] | [_, _] | [_, _, _] => by simp [chunksOfFour]

/-- Every chunk but the last has four bytes. -/
theorem chunksOfFour_dropLast (bytes : List Byte) :
    ∀ c ∈ (chunksOfFour bytes).dropLast, c.length = 4 := by
  induction bytes using chunksOfFour.induct with
  | case1 b0 b1 b2 b3 rest ih =>
    rw [chunksOfFour]
    cases hrest : chunksOfFour rest with
    | nil => exact List.forall_mem_nil _
    | cons c cs =>
      rw [List.dropLast_cons_cons, ← hrest]
      exact List.forall_mem_cons.mpr ⟨rfl, ih⟩
  | case2 => simp [chunksOfFour]
  | case3 bytes h4 h0 => simp [chunksOfFour]

/-- FINAL is the last command of HASH, so `DONE` is set. -/
theorem effects_hashCommands_done (seed : Word) (bytes : List Byte) (s : State) :
    (effects (hashCommands seed bytes) s).done = true := by
  rw [hashCommands, effects_cons, effects_append]
  rfl

/-! ### The halves of a 64-bit value (R57) -/

@[simp] theorem lowHalf_append (high low : Word) : lowHalf (high ++ low) = low :=
  BitVec.extractLsb'_append_eq_right

@[simp] theorem highHalf_append (high low : Word) : highHalf (high ++ low) = high :=
  BitVec.extractLsb'_append_eq_left

@[simp] theorem halves_append (v : DWord) : highHalf v ++ lowHalf v = v :=
  BitVec.extractLsb'_append_extractLsb' (w := 32) (len := 32)

/-- The two halves loaded one after the other give the whole value, whatever was held. -/
theorem load_low_then_high (r v : DWord) :
    withHighHalf (withLowHalf r (lowHalf v)) (highHalf v) = v := by
  rw [withHighHalf, withLowHalf, lowHalf_append, halves_append]

theorem load_high_then_low (r v : DWord) :
    withLowHalf (withHighHalf r (highHalf v)) (lowHalf v) = v := by
  rw [withLowHalf, withHighHalf, highHalf_append, halves_append]

end Sys2Proof.Machine
end

section
/-! The statements of 30_encoding.md. -/

namespace Sys2Proof.Machine

/-- Settles O1: the opcode written selects its own row, and the bytes taken out of DATA are those
assembled into it. -/
theorem decodeOfEncode : Obligations.DecodeOfEncode :=
  fun _ hwf => decode_encodeWord hwf

/-- Settles O2: row by row of the decoder; the ABSORB row by its byte count. -/
theorem encodeOfDecode : Obligations.EncodeOfDecode := by
  intro w i hdec
  have row := decode_row w
  rw [hdec] at row
  have hword := word_fields w
  cases row with
  | absorb h =>
    obtain ⟨hpos, hle, hop⟩ := absorb_row_count _ h
    have hlen := length_absorbBytes (absorbCount (opField w)) (dataField w)
    rw [← hlen] at hop
    refine ⟨Instr.wellFormed_absorb_iff.mpr (by omega), (opField_word _ _).trans hop, ?_⟩
    intro k hk
    rw [hlen] at hk
    rw [encodeWord, getLsbD_commandWord _ _ (by omega), getLsbD_le32_absorbBytes _ hle hk,
      getLsbD_dataField w (by omega)]
  | init h | ldlo h | ldhi h =>
    rw [h] at hword
    exact ⟨rfl, congrArg opField hword, hword⟩
  | nop h | final h | encode h => exact ⟨rfl, h.symm ▸ opField_word _ _, trivial⟩

/-- Settles O3: each row from `decode_word`; ten of the 256 values of `OP` decode, and the reserved ones
are the others. -/
theorem decodeFollowsOpcodeMap : Obligations.DecodeFollowsOpcodeMap := by
  refine ⟨fun data => ?_, fun op data hop => ?_, count_defined_opcodes, ?_⟩
  · simp only [decode_word]
    exact ⟨rfl, rfl, rfl, rfl, rfl, rfl, rfl, rfl, rfl, rfl⟩
  · have hrow := DecodeRow.reserved (w := op ++ data) (by rwa [opField_word])
    rw [hrow.decode_eq, opField_word]
  · have hsplit := List.length_eq_length_filter_add (l := List.range 256)
      (fun op => (decode (BitVec.ofNat 8 op ++ 0#32)).toOption.isSome)
    simp only [Option.not_isSome] at hsplit
    rw [count_defined_opcodes, List.length_range] at hsplit
    omega

/-- Settles O4: the three commands without operand have a row each; an ABSORB reads its bytes' bits
alone, and the encoder assembles those bytes alone. -/
theorem ignoredBitsHaveNoEffect : Obligations.IgnoredBitsHaveNoEffect := by
  refine ⟨fun w w' hop h => ?_, dataField_word _ _, dataField_word _ _, dataField_word _ _, ?_⟩
  · rcases h with h | ⟨hrow, hbits⟩
    · simp only [List.mem_cons, List.not_mem_nil, or_false] at h
      rcases h with h | h | h
      · exact (DecodeRow.nop h).decode_eq.trans (DecodeRow.nop (hop ▸ h)).decode_eq.symm
      · exact (DecodeRow.final h).decode_eq.trans (DecodeRow.final (hop ▸ h)).decode_eq.symm
      · exact (DecodeRow.encode h).decode_eq.trans (DecodeRow.encode (hop ▸ h)).decode_eq.symm
    · have hmem := (absorb_row_iff _).mp hrow
      obtain ⟨_, hle, _⟩ := absorb_row_count _ hmem
      rw [← absorbCount_eq_masked] at hbits
      have hbytes : absorbBytes (absorbCount (opField w)) (dataField w) =
          absorbBytes (absorbCount (opField w)) (dataField w') := by
        refine absorbBytes_congr fun k hk => ?_
        rw [getLsbD_dataField w (by omega), getLsbD_dataField w' (by omega), hbits k hk]
      rw [(DecodeRow.absorb hmem).decode_eq, (DecodeRow.absorb (hop ▸ hmem)).decode_eq, hbytes, hop]
  · intro bytes _ k hlow hk
    rw [encodeWord, getLsbD_commandWord _ _ hk, getLsbD_le32_above hlow hk]

/-- Settles O7: an entry without `cmd_ready` keeps its handshake alone; an accepted word is run after an
edge without handshake. -/
theorem acceptanceIsCmdReady : Obligations.AcceptanceIsCmdReady := by
  refine ⟨State.cmdReady_iff, step_of_not_cmdReady, fun s p rest hch hv hready => ?_⟩
  have ha : (s.withInputs (p :: rest)).accepts p = true := by
    rw [State.accepts, hv]
    exact hready
  have hstep := step_accepted (State.withInputs_inputs s (p :: rest)) ha
  rw [State.withInputs_withInputs, State.serialize_of_not_chReady _ hch] at hstep
  refine ⟨fun i hi => ?_, fun e he => ?_⟩
  · rw [wordEffect_of_decode hi, ← exec_eq_effect] at hstep
    exact hstep
  · rw [wordEffect_of_error he] at hstep
    exact hstep

/-- Settles O38: the expansion cuts the bytes into chunks of four, and absorbing the chunks is absorbing
the bytes. -/
theorem hashExpansionHashes : Obligations.HashExpansionHashes := by
  intro seed bytes
  refine ⟨?_, ⟨chunksOfFour bytes, rfl, chunksOfFour_flatten bytes, chunksOfFour_dropLast bytes⟩,
    hashCommands_wellFormed seed bytes, fun s => ⟨_, execList_eq_effects _ s,
      effects_hashCommands_result seed bytes s, effects_hashCommands_done seed bytes s⟩⟩
  simp [hashCommands, length_chunksOfFour]

/-- Settles O42: `cmd_ready` refuses ENCODE alone, and an entry refused without handshake changes no
register. -/
theorem encodeWaitsForSerializer : Obligations.EncodeWaitsForSerializer :=
  ⟨fun _ _ hcnt => State.cmdReady_encode_waits false (opField_word _ _) hcnt,
    fun _ hcnt => exec_encode_waits hcnt,
    fun _ _ hop hbusy => State.cmdReady_of_opField_ne hop hbusy,
    fun _ hcnt h k => runSteps_only_encodes hcnt h k⟩

/-- Settles O48: each load keeps the half the other one writes. -/
theorem loadResultEitherOrder : Obligations.LoadResultEitherOrder := by
  intro v s
  refine ⟨rfl, ?_, ?_⟩
  · exact (execList_eq_effects _ s).trans
      (congrArg (fun x => Host.Outcome.next (s.setLoaded x)) (load_low_then_high s.result v))
  · exact (execList_eq_effects _ s).trans
      (congrArg (fun x => Host.Outcome.next (s.setLoaded x)) (load_high_then_low s.result v))

/-- Settles O6: the entry is accepted, and its handshake comes first. -/
theorem stepRunsAcceptedCommand : Obligations.StepRunsAcceptedCommand := by
  intro s p rest i hin hr hv hbusy hop hdec
  have ha := (s.accepts_iff p).mpr ⟨hv, hr, hbusy, hop⟩
  rw [step_accepted hin ha, wordEffect_of_decode hdec, ← exec_eq_effect, State.serialize_eq_ite _ hr]
  rfl

/-- Settles O8: a reserved `OP` is none of the ten, so not ENCODE's, and its word raises ILL. -/
theorem reservedCommandSetsIll : Obligations.ReservedCommandSetsIll := by
  intro s op data rest hrange hbusy
  have hmem := not_defined_of_reserved_range op hrange
  rw [← opField_word op data] at hmem
  have hop : opField (op ++ data) ≠ 0x10 := fun h => hmem (by simp [h])
  refine ⟨State.cmdReady_of_opField_ne hop hbusy, ?_⟩
  have hstep := step_present_word rest hbusy hop
  rw [wordEffect_of_error (DecodeRow.reserved hmem).decode_eq] at hstep
  exact hstep

end Sys2Proof.Machine
end

section
/-! SUPPORT. What the statements of 40_hash_engine.md rest on: what an entry leaves of the message in
progress (R75), a state that stands at the start of a message (R76), and the mixing functions (R62 to R69). -/

namespace Sys2Proof.Machine

/-! ### The message in progress (R70, R75) -/

/-- `s` is inside a message under `seed`, `m` absorbed so far, and answers the next entry (`CBUSY = 0`). -/
structure State.InMessage (seed : Word) (m : List Byte) (s : State) : Prop where
  holds : s.HoldsMessage m
  seed_eq : s.seed = seed
  not_busy : s.cbusy = false

section
variable {seed : Word} {m : List Byte} {s : State}

/-- What is written outside the message's own registers does not touch the message. -/
theorem State.InMessage.of_frame (h : s.InMessage seed m) (v : DWord) (done ill : Bool) (x : DWord)
    (n : BitVec 4) (chars : List Byte) :
    State.InMessage seed m
      { s with result := v, done := done, ill := ill, sr := x, cnt := n, delivered := chars } :=
  ⟨⟨h.holds.lanes, h.holds.tail, h.holds.bcnt, h.holds.len⟩, h.seed_eq, h.not_busy⟩

theorem State.InMessage.raiseIll (h : s.InMessage seed m) : s.raiseIll.InMessage seed m :=
  h.of_frame s.result s.done true s.sr s.cnt s.delivered

/-- A handshake leaves the message alone (R87). -/
theorem State.InMessage.serialize (h : s.InMessage seed m) (p : PortIn) :
    (s.serialize p).InMessage seed m := by
  obtain ⟨chars, x, n, e⟩ := s.serialize_eq p
  rw [e]
  exact h.of_frame s.result s.done s.ill x n chars

/-- INIT begins the empty message from every state that answers it (R71). -/
theorem State.beginMessage_inMessage (seed : Word) (hbusy : s.cbusy = false) :
    (s.beginMessage seed).InMessage seed [] :=
  ⟨beginMessage_holds s seed, rfl, hbusy⟩

theorem State.InMessage.absorb (h : s.InMessage seed m) (bytes : List Byte) :
    (bytes.foldl absorbByte s).InMessage seed (m ++ bytes) :=
  have frame := foldl_absorbByte_frame bytes s
  ⟨foldl_absorbByte_holds bytes h.holds, frame.seed.trans h.seed_eq, frame.cbusy.trans h.not_busy⟩

/-- The message bytes a command delivers: those of an ABSORB (R34). -/
def commandBytes : Instr → List Byte
  | .absorb bytes => bytes
  | _ => []

/-- A command other than INIT and FINAL extends the message by the bytes it delivers. -/
theorem State.InMessage.effect (h : s.InMessage seed m) {i : Instr} (hinit : ∀ v, i ≠ .init v)
    (hfinal : i ≠ .final) : (effect i s).InMessage seed (m ++ commandBytes i) := by
  cases i with
  | init v => exact absurd rfl (hinit v)
  | final => exact absurd rfl hfinal
  | absorb bytes => exact h.absorb bytes
  | nop =>
    simp only [commandBytes, List.append_nil]
    exact h
  | encode =>
    obtain ⟨x, n, e⟩ := effect_encode_eq s
    simp only [e, commandBytes, List.append_nil]
    exact h.of_frame s.result s.done s.ill x n s.delivered
  | ldlo v | ldhi v =>
    simp only [commandBytes, List.append_nil]
    exact h.of_frame _ false s.ill s.sr s.cnt s.delivered

end

/-! ### What an entry presents -/

theorem PortIn.command?_eq_some_iff {p : PortIn} {i : Instr} :
    p.command? = some i ↔ p.cmdValid = true ∧ decode p.cmdData = .ok i := by
  unfold PortIn.command?
  cases p.cmdValid <;> cases decode p.cmdData <;> simp [Except.toOption]

theorem PortIn.command?_present {i : Instr} (h : i.WellFormed) :
    (PortIn.present (encodeWord i)).command? = some i :=
  PortIn.command?_eq_some_iff.mpr ⟨rfl, decode_encodeWord h⟩

theorem PortIn.messageBytes_of_command {p : PortIn} {i : Instr} (h : p.command? = some i) :
    p.messageBytes = commandBytes i := by
  rw [PortIn.messageBytes, h]
  cases i <;> rfl

theorem PortIn.messageBytes_of_no_command {p : PortIn} (h : p.command? = none) :
    p.messageBytes = [] := by
  rw [PortIn.messageBytes, h]

theorem PortIn.insideMessage_iff {p : PortIn} :
    p.insideMessage = true ↔ p.rst = false ∧ (∀ v, p.command? ≠ some (.init v)) ∧
      p.command? ≠ some .final := by
  unfold PortIn.insideMessage
  rcases p.command? with _ | i
  · simp
  · cases i <;> simp

/-- An entry that is refused presents no message byte: it presents nothing or an ENCODE. -/
theorem PortIn.messageBytes_of_not_accepted {s : State} {p : PortIn} (hr : p.rst = false)
    (hbusy : s.cbusy = false) (ha : s.accepts p = false) : p.messageBytes = [] := by
  rcases State.not_accepts_cases hr hbusy ha with hv | hop
  · exact PortIn.messageBytes_of_no_command (by simp [PortIn.command?, hv])
  · by_cases hv : p.cmdValid = true
    · exact PortIn.messageBytes_of_command
        (PortIn.command?_eq_some_iff.mpr ⟨hv, decode_of_opField_encode hop⟩)
    · exact PortIn.messageBytes_of_no_command (by simp [PortIn.command?, hv])

/-- A command other than ENCODE is accepted and takes effect after the handshake of its edge (R48). -/
theorem step_command {s : State} {p : PortIn} {i : Instr} (rest : List PortIn) (hr : p.rst = false)
    (hbusy : s.cbusy = false) (hc : p.command? = some i) (hi : i ≠ .encode) :
    step (s.withInputs (p :: rest)) = .next ((effect i (s.serialize p)).withInputs rest) := by
  obtain ⟨hv, hdec⟩ := PortIn.command?_eq_some_iff.mp hc
  have hop : opField p.cmdData ≠ 0x10 := fun h =>
    hi (Except.ok.inj (hdec.symm.trans (decode_of_opField_encode h)))
  rw [step_word rest hr hv hbusy hop, wordEffect_of_decode hdec]

/-! ### Entries inside a message (R75) -/

/-- An accepted word extends the message by the bytes it delivers. -/
theorem State.InMessage.wordEffect {s : State} {seed : Word} {m : List Byte} {p : PortIn}
    (h : s.InMessage seed m) (hp : p.insideMessage = true) (hv : p.cmdValid = true) :
    (wordEffect p.cmdData s).InMessage seed (m ++ p.messageBytes) := by
  obtain ⟨-, hinit, hfinal⟩ := PortIn.insideMessage_iff.mp hp
  cases hdec : decode p.cmdData with
  | ok i =>
    have hc := PortIn.command?_eq_some_iff.mpr ⟨hv, hdec⟩
    rw [hc] at hinit hfinal
    rw [wordEffect_of_decode hdec, PortIn.messageBytes_of_command hc]
    exact h.effect (fun v e => hinit v (congrArg some e)) (fun e => hfinal (congrArg some e))
  | error e =>
    rw [wordEffect_of_error hdec,
      PortIn.messageBytes_of_no_command (by simp [PortIn.command?, hdec, Except.toOption]),
      List.append_nil]
    exact h.raiseIll

/-- An entry without reset, INIT and FINAL extends the message by the bytes it presents, whatever the
serializer does at the same edge. -/
theorem step_insideMessage {s : State} {seed : Word} {m : List Byte} {p : PortIn}
    (rest : List PortIn) (h : s.InMessage seed m) (hp : p.insideMessage = true) :
    ∃ t : State, step (s.withInputs (p :: rest)) = .next (t.withInputs rest) ∧
      t.InMessage seed (m ++ p.messageBytes) := by
  obtain ⟨hr, -, -⟩ := PortIn.insideMessage_iff.mp hp
  have hin := State.withInputs_inputs s (p :: rest)
  cases ha : (s.withInputs (p :: rest)).accepts p with
  | true =>
    have hv := ((State.accepts_iff _ p).mp ha).1
    have hstep := step_accepted hin ha
    rw [State.withInputs_withInputs, State.serialize_withInputs, wordEffect_withInputs] at hstep
    exact ⟨_, hstep, (h.serialize p).wordEffect hp hv⟩
  | false =>
    have hstep := step_not_accepted hin hr ha
    rw [State.withInputs_withInputs, State.serialize_withInputs] at hstep
    refine ⟨_, hstep, ?_⟩
    rw [PortIn.messageBytes_of_not_accepted hr h.not_busy ha, List.append_nil]
    exact h.serialize p

/-- So do any number of them, one a step. -/
theorem runSteps_insideMessage {s : State} {seed : Word} {m : List Byte} {ps : List PortIn}
    (rest : List PortIn) (h : s.InMessage seed m) (hps : ∀ p ∈ ps, p.insideMessage = true) :
    ∃ t : State, runSteps ps.length (s.withInputs (ps ++ rest)) = .next (t.withInputs rest) ∧
      t.InMessage seed (m ++ ps.flatMap PortIn.messageBytes) := by
  induction ps generalizing s m with
  | nil => exact ⟨s, rfl, by simpa using h⟩
  | cons p ps ih =>
    obtain ⟨hp, hps⟩ := List.forall_mem_cons.mp hps
    obtain ⟨u, hstep, hu⟩ := step_insideMessage (ps ++ rest) h hp
    obtain ⟨t, hrun, ht⟩ := ih hu hps
    refine ⟨t, (runSteps_succ hstep).trans hrun, ?_⟩
    rwa [List.append_assoc, ← List.flatMap_cons] at ht

/-! ### The state at the start of a message (R71, R76) -/

/-- ABSORBs and FINAL from a state that holds the empty message give the hash of their bytes, however they
are cut. -/
theorem effects_absorbs_final_result {t : State} (h : t.HoldsMessage []) (chunks : List (List Byte)) :
    (effects (chunks.map .absorb ++ [.final]) t).result = hash64 chunks.flatten t.seed := by
  have hholds := foldl_absorbByte_holds chunks.flatten h
  rw [effects_append, effects_absorbs]
  exact hholds.hashValue.trans (congrArg _ (foldl_absorbByte_frame _ t).seed)

/-- What R76 says of a state that INIT of `seed` does not change. -/
theorem startsMessage_of_beginMessage_eq {t : State} {seed : Word} (h : t.beginMessage seed = t) :
    exec (.init seed) t = .next t ∧ t.seed = seed ∧ t.HoldsMessage [] ∧
      ∀ chunks : List (List Byte), (∀ c ∈ chunks, (Instr.absorb c).WellFormed) →
        ∃ u, execList (chunks.map .absorb ++ [.final]) t = .next u ∧
          u.result = hash64 chunks.flatten seed := by
  have hseed : t.seed = seed := by rw [← h, State.beginMessage_seed]
  have hholds : t.HoldsMessage [] := h ▸ beginMessage_holds t seed
  refine ⟨(exec_init seed t).trans (congrArg _ h), hseed, hholds, fun chunks _ =>
    ⟨_, execList_eq_effects _ t, ?_⟩⟩
  rw [effects_absorbs_final_result hholds, hseed]

theorem State.finishMessage_beginMessage (s : State) (v : DWord) :
    (s.finishMessage v).beginMessage s.seed = s.finishMessage v := rfl

theorem State.applyReset_beginMessage (s : State) : s.applyReset.beginMessage 0 = s.applyReset := rfl

/-! ### Bijections on words (R62, R63, R68) -/

/-- Multiplication by an odd constant loses nothing modulo `2^32`. -/
theorem mul_odd_bijective {c : Word} (hodd : c.toNat % 2 = 1) :
    Function.Bijective (fun k : Word => k * c) := by
  refine Finite.injective_iff_bijective.mp fun x y hxy => BitVec.eq_of_toNat_eq ?_
  have hmod : x.toNat * c.toNat ≡ y.toNat * c.toNat [MOD 2 ^ 32] := by
    have := congrArg BitVec.toNat hxy
    rwa [BitVec.toNat_mul, BitVec.toNat_mul] at this
  have hcoprime : Nat.gcd (2 ^ 32) c.toNat = 1 :=
    Nat.Coprime.pow_left 32 ((Nat.coprime_two_left).mpr (Nat.odd_iff.mpr hodd))
  exact (Nat.ModEq.cancel_right_of_coprime hcoprime hmod).eq_of_lt_of_lt x.isLt y.isLt

/-- Rotation permutes the bits. -/
theorem rotateLeft_bijective {r : Nat} (hr : r < 32) :
    Function.Bijective (fun x : Word => x.rotateLeft r) := by
  refine Finite.injective_iff_bijective.mp
    (Function.LeftInverse.injective (g := fun x => x.rotateRight r) fun x => ?_)
  apply BitVec.eq_of_getLsbD_eq
  intro i hi
  simp only [BitVec.getLsbD_rotateRight, BitVec.getLsbD_rotateLeft, Nat.mod_eq_of_lt hr]
  by_cases hlow : i < 32 - r
  · have hback : r + i - r = i := by omega
    have hnot : ¬ r + i < r := by omega
    have hlt : r + i < 32 := by omega
    simp [hlow, hnot, hlt, hback]
  · have hwrap : i - (32 - r) < r := by omega
    have hback : 32 - r + (i - (32 - r)) = i := by omega
    simp [hlow, hi, hwrap, hback]

/-- The shift-and-XOR of the avalanche step. -/
def xorShift (r : Nat) (x : Word) : Word := x ^^^ (x >>> r)

/-- Done twice, the middle terms cancel. -/
theorem xorShift_xorShift (r : Nat) (x : Word) : xorShift r (xorShift r x) = xorShift (r + r) x := by
  unfold xorShift
  rw [BitVec.ushiftRight_xor_distrib, ← BitVec.shiftRight_add, BitVec.xor_assoc,
    ← BitVec.xor_assoc (x >>> r), BitVec.xor_self, BitVec.zero_xor]

/-- Doubling the distance ends in a shift that leaves nothing, the identity. -/
theorem xorShift_bijective {r : Nat} (hr : 0 < r) : Function.Bijective (xorShift r) := by
  by_cases hbig : 32 ≤ r
  · have hid : xorShift r = id := by
      funext x
      rw [xorShift, BitVec.ushiftRight_eq_zero hbig, BitVec.xor_zero, id]
    exact hid ▸ Function.bijective_id
  · have htwice : xorShift r ∘ xorShift r = xorShift (r + r) := funext (xorShift_xorShift r)
    have hdouble := htwice ▸ xorShift_bijective (r := r + r) (by omega)
    exact ⟨hdouble.injective.of_comp, hdouble.surjective.of_comp⟩
termination_by 32 - r

/-! ### The mixing functions, with the library's rotation (R62 to R69) -/

theorem mixK1_eq (k : Word) : mixK1 k = (k * c1).rotateLeft 15 * c2 :=
  congrArg (· * c2) (rotationIsCircular (k * c1) 15 (by decide) (by decide))

theorem mixK2_eq (k : Word) : mixK2 k = (k * c2).rotateLeft 17 * c1 :=
  congrArg (· * c1) (rotationIsCircular (k * c2) 17 (by decide) (by decide))

theorem laneAUpdate_eq (a b k1 : Word) :
    laneAUpdate a b k1 = ((a ^^^ mixK1 k1).rotateLeft 19 + b) * 5 + ca :=
  congrArg (fun x => (x + b) * 5 + ca) (rotationIsCircular _ 19 (by decide) (by decide))

theorem laneBUpdate_eq (newA b k2 : Word) :
    laneBUpdate newA b k2 = ((b ^^^ mixK2 k2).rotateLeft 13 + newA) * 5 + cb :=
  congrArg (fun x => (x + newA) * 5 + cb) (rotationIsCircular _ 13 (by decide) (by decide))

theorem mixK1_bijective : Function.Bijective mixK1 :=
  (funext mixK1_eq : mixK1 = _) ▸ (mul_odd_bijective (c := c2) (by decide)).comp
    ((rotateLeft_bijective (by decide)).comp (mul_odd_bijective (c := c1) (by decide)))

theorem mixK2_bijective : Function.Bijective mixK2 :=
  (funext mixK2_eq : mixK2 = _) ▸ (mul_odd_bijective (c := c1) (by decide)).comp
    ((rotateLeft_bijective (by decide)).comp (mul_odd_bijective (c := c2) (by decide)))

theorem fmix_eq (x : Word) :
    fmix x = xorShift 16 (xorShift 13 (xorShift 16 x * f1) * f2) := rfl

theorem fmix_bijective : Function.Bijective fmix :=
  (funext fmix_eq : fmix = _) ▸ (xorShift_bijective (by decide)).comp
    ((mul_odd_bijective (c := f2) (by decide)).comp ((xorShift_bijective (by decide)).comp
      ((mul_odd_bijective (c := f1) (by decide)).comp (xorShift_bijective (by decide)))))

/-- The two halves of the 64-bit value, high half first. -/
theorem shiftLeft_or_eq_append (high low : Word) :
    (high.setWidth 64 <<< 32) ||| low.setWidth 64 = high ++ low := by
  rw [← BitVec.setWidth_append_eq_shiftLeft_setWidth_or, BitVec.setWidth_eq]

end Sys2Proof.Machine
end

section
/-! The statements of 40_hash_engine.md. -/

namespace Sys2Proof.Machine

/-- Settles O37: INIT begins the message, every entry inside it extends it by the bytes it presents, and
FINAL writes the hash of what is held; `inputs` is taken entry by entry. -/
theorem interleavedMessageHashes : Obligations.InterleavedMessageHashes := by
  refine ⟨fun s seed first last between rest hbusy hin hfr hfirst hbetween hlr hlast => ?_,
    fun chunk h1 h4 => ?_⟩
  · have hinit := step_command (s := s) (between ++ last :: rest) hfr hbusy hfirst Instr.noConfusion
    rw [← hin] at hinit
    obtain ⟨u, hrun, hu⟩ := runSteps_insideMessage (last :: rest)
      (State.beginMessage_inMessage (s := s.serialize first) seed
        ((s.serialize_cbusy first).trans hbusy)) hbetween
    have hfinal := step_command rest hlr hu.not_busy hlast Instr.noConfusion
    refine ⟨_, (runSteps_succ hinit).trans ((runSteps_add hrun).trans (runSteps_succ hfinal)),
      ?_, rfl, rfl⟩
    have hhash := (u.serialize_hashValue last).trans hu.holds.hashValue
    rwa [hu.seed_eq, List.nil_append] at hhash
  · have hc := PortIn.command?_present (Instr.wellFormed_absorb_iff.mpr ⟨h1, h4⟩)
    refine ⟨PortIn.insideMessage_iff.mpr ⟨rfl, ?_, ?_⟩, PortIn.messageBytes_of_command hc⟩ <;>
      simp [hc]

/-- Settles O26: odd multiplication, rotation and shift-and-XOR are bijections, and the mixers are
compositions of them. -/
theorem mixersAreTheRulesBijections : Obligations.MixersAreTheRulesBijections :=
  ⟨mixK1_eq, mixK2_eq, fun _ => rfl, by decide, by decide, by decide, mixK1_bijective, mixK2_bijective,
    fmix_bijective, by decide, by decide, by decide⟩

/-- Settles O27: the two words of a block are the concatenations of its bytes. -/
theorem blockMixRule : Obligations.BlockMixRule := by
  refine ⟨fun a b b0 b1 b2 b3 b4 b5 b6 b7 => ?_, by decide, by decide⟩
  rw [← le32_four, ← le32_four]
  simp only [blockMix, laneAUpdate_eq, laneBUpdate_eq]
  rfl

/-- Settles O28: length by length, with the words of the bytes there are. -/
theorem tailMixRule : Obligations.TailMixRule := by
  refine ⟨fun a b t0 t1 t2 t3 t4 t5 t6 => ?_, by decide, by decide⟩
  rw [← le32_one, ← le32_two, ← le32_three, ← le32_four, ← le32_one t4, ← le32_two t4, ← le32_three t4]
  exact ⟨rfl, rfl, rfl, rfl, rfl, rfl, rfl, rfl⟩

/-- Settles O31: the byte is the eighth or not; the seven before it are the bytes held. -/
theorem absorbByteRule : Obligations.AbsorbByteRule := by
  intro b s
  rw [exec_absorb, List.foldl_cons, List.foldl_nil]
  by_cases h7 : s.bcnt = 7
  · have htail : s.tail = s.buf.toList.take 7 := by rw [State.tail, h7]; rfl
    rw [if_pos h7, absorbByte_completes h7, State.bufWith_full b h7, htail]
    generalize blockMix _ _ = lanes
    simp [State.closeBlock, State.bufWith, h7]
  · rw [if_neg h7, absorbByte_buffers h7]
    rfl

/-- Settles O34: the states FINAL and reset answer are ones INIT of their seed does not change. -/
theorem finalAndResetStartAsInit : Obligations.FinalAndResetStartAsInit := by
  refine ⟨fun s t hs => ?_, fun s t p rest hin hr hs => ?_⟩
  · obtain rfl := Host.Outcome.next.inj hs
    exact startsMessage_of_beginMessage_eq (s.finishMessage_beginMessage s.hashValue)
  · rw [step_entry hin, if_pos hr] at hs
    obtain rfl := Host.Outcome.next.inj hs
    exact startsMessage_of_beginMessage_eq (s.withInputs rest).applyReset_beginMessage

/-- Settles O36: the hash FINAL writes is that of the message held. -/
theorem finalHashesMessage : Obligations.FinalHashesMessage :=
  fun _ s h => ⟨_, exec_final s, h.hashValue, rfl⟩

/-- Settles O29: shifting `high` above `low` concatenates them. -/
theorem finalizeRule : Obligations.FinalizeRule :=
  ⟨fun _ _ _ => shiftLeft_or_eq_append _ _, by decide⟩

/-- Settles O30: `beginMessage` is the assignment of R71. -/
theorem initStartsMessage : Obligations.InitStartsMessage :=
  ⟨decode_word 0x01, fun data s => exec_init data s, _, execList_eq_effects _ _, by decide⟩

/-- Settles O33: `finishMessage` is the assignment of R74. -/
theorem finalWritesResult : Obligations.FinalWritesResult :=
  ⟨decode_word 0x08, fun s => exec_final s, _, execList_eq_effects _ _, by decide, rfl⟩

end Sys2Proof.Machine
end

section
/-! SUPPORT. What the statements of 41_base32_encoder.md rest on: the bits of the 13 indices of a value
(R83), the value a list of indices came from (R92), and the serializer from an accepted ENCODE on, whatever
the host drives but reset (R95). -/

namespace Sys2Proof.Machine

/-! ### The indices of a value (R83, R85) -/

/-- Bit `j` of index `i` is bit `59 + j - 5i` of the value, and a zero where there is none. -/
theorem getLsbD_encIndex (v : DWord) {i j : Nat} (hj : j < 5) :
    (encIndex v i).getLsbD j = (decide (5 * i ≤ 59 + j) && v.getLsbD (59 + j - 5 * i)) := by
  have hlt : 59 + j < 64 := by omega
  rw [← topBits_shifted, BitVec.getLsbD_extractLsb', BitVec.getLsbD_shiftLeft]
  simp only [hj, hlt, decide_true, Bool.true_and, ← decide_not, Nat.not_lt]

/-- The last index is the 4 low bits and a zero fill bit (R85). -/
theorem encIndex_last (v : DWord) : encIndex v 12 = v.extractLsb' 0 4 ++ 0#1 := by
  refine BitVec.eq_of_getLsbD_eq fun j hj => ?_
  rw [getLsbD_encIndex v hj, BitVec.getLsbD_append, BitVec.getLsbD_extractLsb', Nat.zero_add]
  rcases Nat.eq_zero_or_pos j with rfl | hpos
  · rfl
  · rw [if_neg (by omega), decide_eq_true (by omega), decide_eq_true (show j - 1 < 4 by omega)]
    congr 2
    omega

theorem encIndex_last_toNat (v : DWord) : (encIndex v 12).toNat = 2 * (v.toNat % 16) := by
  rw [encIndex_last, toNat_append, BitVec.extractLsb'_toNat, Nat.shiftRight_zero, BitVec.toNat_ofNat]
  omega

/-- The indices of the 13 characters of `encode(v)`, first character first (R84). -/
def encIndices (v : DWord) : List (BitVec 5) := (List.range 13).map (encIndex v)

theorem base32_eq_map_rom (v : DWord) : base32 v = (encIndices v).map rom := by
  rw [encIndices, List.map_map]
  rfl

theorem encIndices_getElem? (v : DWord) {i : Nat} (hi : i < 13) :
    (encIndices v)[i]? = some (encIndex v i) := by
  simp [encIndices, hi]

/-! ### The value of a list of indices (R92) -/

/-- The value whose bits are those of 13 indices, without the fill bit: bit `k` is bit `(k + 1) mod 5` of
the index at `12 - (k + 1) / 5`. -/
def valueOfIndices (indices : List (BitVec 5)) : DWord :=
  BitVec.ofFnLE fun k : Fin 64 => (indices.getD (12 - (k + 1) / 5) 0).getLsbD ((k + 1) % 5)

theorem getLsbD_valueOfIndices (indices : List (BitVec 5)) {k : Nat} (hk : k < 64) :
    (valueOfIndices indices).getLsbD k =
      (indices.getD (12 - (k + 1) / 5) 0).getLsbD ((k + 1) % 5) := by
  rw [valueOfIndices, BitVec.getLsbD_ofFnLE, dif_pos hk]

/-- The indices of a value determine it. -/
theorem valueOfIndices_encIndices (v : DWord) : valueOfIndices (encIndices v) = v := by
  refine BitVec.eq_of_getLsbD_eq fun k hk => ?_
  rw [getLsbD_valueOfIndices _ hk, List.getD_eq_getElem?_getD,
    encIndices_getElem? v (by omega), Option.getD_some, getLsbD_encIndex v (by omega),
    decide_eq_true (by omega), Bool.true_and]
  congr 1
  omega

/-- Thirteen indices with an even last one are those of their value. -/
theorem encIndices_valueOfIndices {indices : List (BitVec 5)} (hlen : indices.length = 13)
    (heven : (indices.getD 12 0).getLsbD 0 = false) :
    encIndices (valueOfIndices indices) = indices := by
  refine List.ext_getElem (by simp [encIndices, hlen]) fun i _ hi => ?_
  rw [hlen] at hi
  have hget : indices.getD i 0 = indices[i] := List.getD_eq_getElem _ _ _
  simp only [encIndices, List.getElem_map, List.getElem_range]
  rw [← hget]
  refine BitVec.eq_of_getLsbD_eq fun j hj => ?_
  rw [getLsbD_encIndex _ hj]
  by_cases hfill : 5 * i ≤ 59 + j
  · rw [decide_eq_true hfill, Bool.true_and, getLsbD_valueOfIndices _ (by omega)]
    congr 2 <;> omega
  · obtain ⟨rfl, rfl⟩ : i = 12 ∧ j = 0 := by omega
    rw [decide_eq_false hfill, Bool.false_and, heven]

/-! ### The alphabet (20_memory.md R37) -/

theorem rom_toNat : ∀ i : BitVec 5,
    (rom i).toNat = if i.toNat ≤ 25 then 0x61 + i.toNat else 0x32 + (i.toNat - 26) := by
  decide

theorem rom_injective : Function.Injective rom := by
  intro i j h
  have hnat := congrArg BitVec.toNat h
  rw [rom_toNat, rom_toNat] at hnat
  have hi := i.isLt
  have hj := j.isLt
  apply BitVec.eq_of_toNat_eq
  split_ifs at hnat <;> omega

theorem rom_code (i : BitVec 5) :
    (0x61 ≤ (rom i).toNat ∧ (rom i).toNat ≤ 0x7A) ∨ (0x32 ≤ (rom i).toNat ∧ (rom i).toNat ≤ 0x37) := by
  have hi := i.isLt
  rw [rom_toNat]
  split <;> omega

/-! ### A drained serializer (R87, R91) -/

/-- With `CNT = 0` no character is handed over. -/
theorem State.serialize_drained {s : State} (p : PortIn) (hcnt : s.cnt = 0) : s.serialize p = s :=
  if_neg fun h => ((s.handsOver_iff p).mp h).2.1 hcnt

theorem step_take_drained {s : State} (rest : List PortIn) (hcnt : s.cnt = 0) :
    step (s.withInputs (PortIn.take :: rest)) = .next (s.withInputs rest) := by
  rw [step_no_command s rest rfl rfl, State.serialize_drained _ hcnt]

/-- An ENCODE presented while `CNT = 0` takes the snapshot, whatever else its entry drives but reset. -/
theorem step_encode {s : State} {p : PortIn} (rest : List PortIn) (hr : p.rst = false)
    (hbusy : s.cbusy = false) (hcnt : s.cnt = 0) (hc : p.command? = some .encode) :
    step (s.withInputs (p :: rest)) = .next ((s.afterChars s.result 0).withInputs rest) := by
  obtain ⟨hv, hdec⟩ := PortIn.command?_eq_some_iff.mp hc
  have ha : (s.withInputs (p :: rest)).accepts p = true :=
    (State.accepts_iff _ p).mpr ⟨hv, hr, hbusy, fun h => h.2 hcnt⟩
  rw [step_accepted (State.withInputs_inputs _ _) ha, State.withInputs_withInputs,
    State.serialize_withInputs, State.serialize_drained p hcnt, wordEffect_withInputs,
    wordEffect_of_decode hdec, effect_encode_idle hcnt, s.startSerializer_eq_afterChars]

theorem State.status_ebusy_drained {s : State} (hcnt : s.cnt = 0) : s.status.getLsbD 0 = false := by
  rw [s.status_flags.1, State.ebusy, hcnt]
  rfl

/-- After the thirteenth character `SR = (V << 65) mod 2^64 = 0` (R91). -/
theorem State.afterChars_all (s : State) (v : DWord) :
    s.afterChars v 13 = s.withSerializer (s.delivered ++ base32 v) 0 0 := by
  have hsr : v <<< 65 = 0 := BitVec.shiftLeft_eq_zero (by omega)
  rw [State.afterChars, List.take_of_length_le (length_base32 v).le, hsr]
  rfl

/-- No accepted word writes `CBUSY` (R28) or hands a character over. -/
theorem wordEffect_busy_delivered (w : Command) (s : State) :
    (wordEffect w s).cbusy = s.cbusy ∧ (wordEffect w s).delivered = s.delivered := by
  by_cases hop : opField w = 0x10
  · obtain ⟨_, _, h⟩ := effect_encode_eq s
    rw [wordEffect_of_decode (decode_of_opField_encode hop), h]
    exact ⟨rfl, rfl⟩
  · rcases wordEffect_cases hop with ⟨i, hi, h⟩ | h <;> rw [h]
    · exact ⟨(effect_frame hi s).cbusy, (effect_frame hi s).delivered⟩
    · exact ⟨rfl, rfl⟩

/-! ### An encoding in progress (R95, 10_state.md R32 item 5) -/

/-- `n` characters of `encode(v)` have been handed over after `chars`. Until the thirteenth `SR` and `CNT`
are those of R32; from then on a further ENCODE may have written them. -/
structure State.HasEmitted (v : DWord) (chars : List Byte) (n : Nat) (s : State) : Prop where
  not_busy : s.cbusy = false
  delivered : s.delivered = chars ++ (base32 v).take n
  sr : n < 13 → s.sr = v <<< (5 * n)
  cnt : n < 13 → s.cnt = BitVec.ofNat 4 (13 - n)

theorem State.afterChars_hasEmitted {s : State} (v : DWord) (n : Nat) (hbusy : s.cbusy = false) :
    (s.afterChars v n).HasEmitted v s.delivered n :=
  ⟨hbusy, rfl, fun _ => rfl, fun _ => rfl⟩

section
variable {s : State} {v : DWord} {chars : List Byte} {n : Nat}

theorem State.HasEmitted.eq_afterChars (h : s.HasEmitted v chars n) (hn : n < 13) :
    s = { s with delivered := chars }.afterChars v n := by
  rw [State.afterChars, ← h.delivered, ← h.sr hn, ← h.cnt hn]

theorem State.HasEmitted.cnt_ne_zero (h : s.HasEmitted v chars n) (hn : n < 13) : s.cnt ≠ 0 := by
  rw [h.eq_afterChars hn]
  exact State.afterChars_cnt_ne_zero _ v hn

theorem State.HasEmitted.emit (h : s.HasEmitted v chars n) (hn : n < 13) :
    s.emit.HasEmitted v chars (n + 1) := by
  rw [h.eq_afterChars hn, State.afterChars_emit _ v hn]
  exact State.afterChars_hasEmitted (s := { s with delivered := chars }) v (n + 1) h.not_busy

/-- An edge without reset hands over one more character exactly when `ch_ready` is 1. -/
theorem State.HasEmitted.serialize (h : s.HasEmitted v chars n) {p : PortIn} (hr : p.rst = false)
    (hn : n + p.chReady.toNat ≤ 13) : (s.serialize p).HasEmitted v chars (n + p.chReady.toNat) := by
  cases hch : p.chReady with
  | false => rwa [State.serialize_of_not_chReady s hch]
  | true =>
    have hlt : n < 13 := by simpa [hch] using hn
    have hover := (s.handsOver_iff p).mpr ⟨hr, h.cnt_ne_zero hlt, hch⟩
    rw [State.serialize, if_pos hover]
    exact h.emit hlt

/-- An accepted word leaves the characters still to come alone (R95): ENCODE is accepted only after the
last of them. -/
theorem State.HasEmitted.wordEffect (h : s.HasEmitted v chars n) {w : Command}
    (hencode : opField w = 0x10 → 13 ≤ n) : (wordEffect w s).HasEmitted v chars n := by
  obtain ⟨hbusy, hdelivered⟩ := wordEffect_busy_delivered w s
  have hop : n < 13 → opField w ≠ 0x10 := fun hn he => Nat.not_le.mpr hn (hencode he)
  refine ⟨hbusy.trans h.not_busy, hdelivered.trans h.delivered, fun hn => ?_, fun hn => ?_⟩ <;>
    obtain ⟨-, hsr, hcnt⟩ := wordEffect_keeps_serializer (hop hn) s
  · exact hsr.trans (h.sr hn)
  · exact hcnt.trans (h.cnt hn)

/-- One entry without reset. -/
theorem State.HasEmitted.step (h : s.HasEmitted v chars n) {p : PortIn} (rest : List PortIn)
    (hr : p.rst = false) (hn : n + p.chReady.toNat ≤ 13) :
    ∃ t : State, step (s.withInputs (p :: rest)) = .next (t.withInputs rest) ∧
      t.HasEmitted v chars (n + p.chReady.toNat) := by
  have hin := State.withInputs_inputs s (p :: rest)
  have hser := h.serialize hr hn
  cases ha : (s.withInputs (p :: rest)).accepts p with
  | true =>
    obtain ⟨-, -, -, hencode⟩ := (State.accepts_iff _ p).mp ha
    have hstep := step_accepted hin ha
    rw [State.withInputs_withInputs, State.serialize_withInputs, wordEffect_withInputs] at hstep
    refine ⟨_, hstep, hser.wordEffect fun hop => Nat.not_lt.mp fun hlt => ?_⟩
    exact hencode ⟨hop, h.cnt_ne_zero (by omega)⟩
  | false =>
    have hstep := step_not_accepted hin hr ha
    rw [State.withInputs_withInputs, State.serialize_withInputs] at hstep
    exact ⟨_, hstep, hser⟩

end

/-- How many handshakes the entries ask for. -/
def handshakes (ps : List PortIn) : Nat := (ps.filter (·.chReady)).length

theorem handshakes_cons (p : PortIn) (ps : List PortIn) :
    handshakes (p :: ps) = p.chReady.toNat + handshakes ps := by
  rw [handshakes, handshakes, List.filter_cons]
  cases p.chReady <;> simp [Nat.add_comm]

/-- Any number of entries without reset, with at most thirteen handshakes in all. -/
theorem State.HasEmitted.run {s : State} {v : DWord} {chars : List Byte} {n : Nat} {ps : List PortIn}
    (h : s.HasEmitted v chars n) (rest : List PortIn) (hr : ∀ p ∈ ps, p.rst = false)
    (hn : n + handshakes ps ≤ 13) :
    ∃ t : State, runSteps ps.length (s.withInputs (ps ++ rest)) = .next (t.withInputs rest) ∧
      t.HasEmitted v chars (n + handshakes ps) := by
  induction ps generalizing s n with
  | nil => exact ⟨s, rfl, h⟩
  | cons p ps ih =>
    obtain ⟨hp, hps⟩ := List.forall_mem_cons.mp hr
    rw [handshakes_cons, ← Nat.add_assoc] at hn ⊢
    obtain ⟨u, hstep, hu⟩ := h.step (ps ++ rest) hp (by omega)
    obtain ⟨t, hrun, ht⟩ := ih hu hps hn
    exact ⟨t, (runSteps_succ hstep).trans hrun, ht⟩

end Sys2Proof.Machine
end

section
/-! The statements of 41_base32_encoder.md. -/

namespace Sys2Proof.Machine

/-- Settles O45: ENCODE starts the emission of `RESULT`, and every entry after it but a reset continues it
by the characters it takes. -/
theorem snapshotSurvivesCommands : Obligations.SnapshotSurvivesCommands := by
  intro s first after rest hcnt hbusy hin hfr hfirst hafter hle
  have hstep := step_encode (after ++ rest) hfr hbusy hcnt hfirst
  rw [← hin] at hstep
  have hstart := State.afterChars_hasEmitted s.result 0 hbusy
  have hn : 0 + handshakes after ≤ 13 := (Nat.zero_add _).trans_le hle
  obtain ⟨t, hrun, ht⟩ := hstart.run rest hafter hn
  rw [Nat.zero_add] at ht
  refine ⟨_, (runSteps_succ hstep).trans hrun, State.withInputs_inputs t rest, ht.delivered,
    fun hlt => ⟨?_, ht.sr hlt⟩⟩
  rw [State.withInputs_cnt, ht.cnt hlt, BitVec.toNat_ofNat]
  exact Nat.mod_eq_of_lt (by omega)

/-- Settles O39: bit by bit, with the fill bit below bit 0. -/
theorem indexClosedForm : Obligations.IndexClosedForm := by
  refine ⟨fun v i hi => BitVec.eq_of_getLsbD_eq fun j hj => ?_, encIndex_last, encIndex_last_toNat,
    by decide, by decide⟩
  rw [getLsbD_encIndex v hj, BitVec.getLsbD_extractLsb', decide_eq_true hj,
    decide_eq_true (show 5 * i ≤ 59 + j by omega), show 59 + j - 5 * i = 59 - 5 * i + j by omega]

/-- Settles O40: `valueOfIndices` inverts the indices, on both sides when the last one is even, and the
alphabet tells the indices apart. -/
theorem encodingImage : Obligations.EncodingImage := by
  refine ⟨fun v => ⟨length_base32 v, fun c hc => ?_⟩, fun v w h => ?_, fun indices hlen => ?_⟩
  · rw [base32_eq_map_rom] at hc
    obtain ⟨i, -, rfl⟩ := List.mem_map.mp hc
    exact rom_code i
  · rw [base32_eq_map_rom, base32_eq_map_rom] at h
    rw [← valueOfIndices_encIndices v, List.map_injective_iff.mpr rom_injective h,
      valueOfIndices_encIndices]
  · constructor
    · rintro ⟨v, h⟩
      rw [base32_eq_map_rom] at h
      have hindices := List.map_injective_iff.mpr rom_injective h
      refine ⟨_, hindices ▸ encIndices_getElem? v (by omega), ?_⟩
      rw [encIndex_last_toNat, Nat.mul_mod_right]
    · rintro ⟨k, hk, heven⟩
      refine ⟨valueOfIndices indices, ?_⟩
      rw [base32_eq_map_rom, encIndices_valueOfIndices hlen]
      rw [List.getD_eq_getElem?_getD, hk, Option.getD_some, BitVec.getLsbD, Nat.testBit_zero, heven]
      rfl

/-- Settles O43: a handshake emits while `CNT ≠ 0`, and the `j`-th after ENCODE is the last of `j`. -/
theorem emitRule : Obligations.EmitRule := by
  refine ⟨fun s rest hcnt => step_take rest hcnt, fun s rest hcnt => step_take_drained rest hcnt,
    fun s u j rest hcnt hj1 hj13 hu => ?_⟩
  rw [exec_encode_idle hcnt, s.startSerializer_eq_afterChars] at hu
  obtain rfl := Host.Outcome.next.inj hu
  obtain ⟨n, rfl⟩ := Nat.exists_eq_add_of_le' hj1
  refine ⟨_, runSteps_takes s s.result rest (n := 0) (by omega), ?_⟩
  rw [Nat.zero_add, State.withInputs_delivered, State.afterChars, base32_take_succ _ (by omega),
    ← List.append_assoc, List.getLast?_concat, Nat.add_sub_cancel]

/-- Settles O44: thirteen handshakes after ENCODE shift every bit of the snapshot out. -/
theorem thirteenCharactersThenIdle : Obligations.ThirteenCharactersThenIdle := by
  intro s data rest hcnt hbusy hin
  have hc : (PortIn.present (0x10#8 ++ data)).command? = some .encode :=
    PortIn.command?_eq_some_iff.mpr ⟨rfl, decode_word 0x10 data⟩
  have hstep := step_encode (List.replicate 13 PortIn.take ++ rest) rfl hbusy hcnt hc
  rw [← hin] at hstep
  have hrun : runSteps 14 s = .next ((s.afterChars s.result 13).withInputs rest) :=
    (runSteps_succ hstep).trans (runSteps_takes s s.result rest (n := 0) (by omega))
  have hdrained := s.afterChars_cnt_drained s.result
  have hall := s.afterChars_all s.result
  generalize s.afterChars s.result 13 = u at hrun hdrained hall
  refine ⟨_, hrun, ?_, State.status_ebusy_drained hdrained, step_take_drained rest hdrained⟩
  rw [hall, ← hcnt]
  rfl

/-- Settles O41: `startSerializer` is the assignment of R86. -/
theorem encodeStartsSerializer : Obligations.EncodeStartsSerializer := by
  refine ⟨decode_word 0x10, fun s hcnt => exec_encode_idle hcnt, fun s t hcnt ht => ?_, by decide⟩
  rw [exec_encode_idle hcnt] at ht
  obtain rfl := Host.Outcome.next.inj ht
  rw [s.startSerializer.status_flags.1]
  rfl

/-- Settles O46: `setLoaded` with the low half replaced is the assignment of R88. -/
theorem ldloLoadsLowHalf : Obligations.LdloLoadsLowHalf :=
  ⟨decode_word 0x20, fun data s => exec_ldlo data s, _, execList_eq_effects _ _, by decide⟩

/-- Settles O47: `setLoaded` with the high half replaced is the assignment of R89. -/
theorem ldhiLoadsHighHalf : Obligations.LdhiLoadsHighHalf :=
  ⟨decode_word 0x21, fun data s => exec_ldhi data s, _, execList_eq_effects _ _, by decide⟩

end Sys2Proof.Machine
end

section
/-! SUPPORT. What the statement of 42_control.md rests on: an entry that presents NOP, and a state that
every other command changes (R97). -/

namespace Sys2Proof.Machine

/-- Accepted or not, an entry that presents NOP alone is only consumed. -/
theorem step_present_nop {w : Command} (hdec : decode w = .ok .nop) (s : State) (rest : List PortIn) :
    step (s.withInputs (PortIn.present w :: rest)) = .next (s.withInputs rest) := by
  have heffect : wordEffect w (s.withInputs rest) = s.withInputs rest := wordEffect_of_decode hdec _
  rw [step_entry (State.withInputs_inputs _ _), State.withInputs_withInputs,
    State.serialize_of_not_chReady _ rfl]
  simp [PortIn.present, heffect]

/-- An ABSORB of 1 to 4 bytes advances `LEN`, also past the wrap at 2^32 (R82). -/
theorem effect_absorb_len_ne {bytes : List Byte} (hwf : (Instr.absorb bytes).WellFormed) (s : State) :
    (effect (.absorb bytes) s).len ≠ s.len := by
  obtain ⟨h1, h4⟩ := Instr.wellFormed_absorb_iff.mp hwf
  have hlen : (effect (.absorb bytes) s).len = s.len + BitVec.ofNat 32 bytes.length :=
    foldl_absorbByte_len bytes s
  rw [hlen]
  bv_omega

/-- With bytes absorbed, `DONE = 1` and the serializer drained, every command but NOP changes a register:
`LEN` (INIT, ABSORB, FINAL), `CNT` (ENCODE) or `DONE` (LDLO, LDHI). -/
theorem effect_ne_self {i : Instr} {s : State} (hlen : s.len ≠ 0) (hdone : s.done = true)
    (hcnt : s.cnt = 0) (hwf : i.WellFormed) (hi : i ≠ .nop) : effect i s ≠ s := by
  intro h
  have hlen' := congrArg State.len h
  have hdone' := congrArg State.done h
  cases i with
  | nop => exact hi rfl
  | absorb bytes => exact effect_absorb_len_ne hwf s hlen'
  | init seed | final => exact hlen hlen'.symm
  | encode =>
    rw [effect_encode_idle hcnt] at h
    have hcnt' := congrArg State.cnt h
    rw [State.startSerializer_cnt, hcnt] at hcnt'
    exact absurd hcnt' (by decide)
  | ldlo v | ldhi v => exact Bool.false_ne_true (hdone'.trans hdone)

end Sys2Proof.Machine
end

section
/-! The statement of 42_control.md. -/

namespace Sys2Proof.Machine

/-- Settles O24: `OP` of NOP is not ENCODE's, so `cmd_ready` does not look at `CNT`; one state with
`LEN = 1`, `DONE = 1` and `CNT = 0` tells every other command from NOP. -/
theorem nopChangesNothing : Obligations.NopChangesNothing := by
  have hdec : ∀ data : Word, decode (0x00#8 ++ data) = .ok .nop := decode_word 0x00
  refine ⟨hdec, exec_nop, fun s data rest => step_present_nop (hdec data) s rest,
    fun s p data hbusy hr hv hw => ?_, fun i hwf hi => ?_⟩
  · have hop : opField p.cmdData ≠ 0x10 := by
      rw [hw, opField_word]
      decide
    rw [State.accepts_of_opField_ne hr hbusy hop, hr]
    exact ⟨State.cmdReady_of_opField_ne hop hbusy, hv⟩
  · exact ⟨{ State.reset with len := 1, done := true }, _, exec_eq_effect i _,
      effect_ne_self (by decide) rfl rfl hwf hi⟩

end Sys2Proof.Machine
end

section
/-! SUPPORT. What the statement of 60_exceptions.md rests on: when the run of a command sequence ends
(R112), one step, one command and one handshake at a time. -/

namespace Sys2Proof.Machine

section
variable {s t : State} {cmds : List Command} {k : Nat}

/-! ### The end of a run, step by step (R112) -/

theorem endedAt_zero_iff : endedAt cmds s 0 = true ↔ cmds = [] ∧ s.cbusy = false ∧ s.cnt = 0 := by
  rw [endedAt, runSteps, acceptedIn]
  simp [and_assoc]

/-- A run with nothing left to wait for has ended. -/
theorem endsAfter_zero (hbusy : s.cbusy = false) (hcnt : s.cnt = 0) : EndsAfter [] s 0 :=
  ⟨endedAt_zero_iff.mpr ⟨rfl, hbusy, hcnt⟩, fun j hj => absurd hj j.not_lt_zero⟩

theorem acceptedIn_succ (h : step s = .next t) :
    acceptedIn (k + 1) s = s.acceptedNow ++ acceptedIn k t := by
  rw [acceptedIn, h]

/-- A run that needs what the first step accepts goes on as the run of the other commands. -/
theorem endedAt_succ (h : step s = .next t) :
    endedAt (s.acceptedNow ++ cmds) s (k + 1) = endedAt cmds t k := by
  have haccepted : (s.acceptedNow ++ acceptedIn k t == s.acceptedNow ++ cmds) =
      (acceptedIn k t == cmds) := by
    rw [Bool.eq_iff_iff, beq_iff_eq, beq_iff_eq, List.append_cancel_left_eq]
  rw [endedAt, endedAt, runSteps_succ h, acceptedIn_succ h, haccepted]

/-- A run that has not ended yet ends one step later than the run of what its first step leaves. -/
theorem EndsAfter.of_step (hstep : step s = .next t) (hend : EndsAfter cmds t k)
    (hgoes : s.acceptedNow ++ cmds = [] → s.cnt ≠ 0) :
    EndsAfter (s.acceptedNow ++ cmds) s (k + 1) := by
  obtain ⟨hended, hbefore⟩ := hend
  refine ⟨(endedAt_succ hstep).trans hended, fun j hj => ?_⟩
  cases j with
  | zero =>
    refine Bool.eq_false_of_not_eq_true fun h0 => ?_
    obtain ⟨hcmds, -, hcnt⟩ := endedAt_zero_iff.mp h0
    exact hgoes hcmds hcnt
  | succ j => exact (endedAt_succ hstep).trans (hbefore j (Nat.lt_of_succ_lt_succ hj))

/-! ### Commands presented in a run (30_encoding.md R48) -/

theorem State.accepts_present {i : Instr} (hwf : i.WellFormed) (hbusy : s.cbusy = false)
    (hcnt : i = .encode → s.cnt = 0) : s.accepts (PortIn.present (encodeWord i)) = true := by
  refine (s.accepts_iff _).mpr ⟨rfl, rfl, hbusy, fun ⟨hop, hne⟩ => hne (hcnt ?_)⟩
  exact Except.ok.inj ((decode_encodeWord hwf).symm.trans (decode_of_opField_encode hop))

/-- A command of the sequence is accepted by the first step, so the run has not ended before it. -/
theorem EndsAfter.present {i : Instr} {rest : List PortIn} (hwf : i.WellFormed)
    (hbusy : s.cbusy = false) (hcnt : i = .encode → s.cnt = 0)
    (hend : EndsAfter cmds ((effect i s).withInputs rest) k) :
    EndsAfter (encodeWord i :: cmds)
      (s.withInputs (PortIn.present (encodeWord i) :: rest)) (k + 1) := by
  have haccepted : (s.withInputs (PortIn.present (encodeWord i) :: rest)).acceptedNow =
      [encodeWord i] :=
    if_pos (State.accepts_present (s := s.withInputs _) hwf hbusy hcnt)
  have hnext := hend.of_step (step_present rest hwf hbusy hcnt)
    (by rw [haccepted]; exact fun h => absurd h (List.cons_ne_nil _ _))
  rwa [haccepted] at hnext

/-- Commands other than ENCODE put the end off by one step each, whatever the serializer holds. -/
theorem EndsAfter.commands {is : List Instr} {rest : List PortIn} (hwf : ∀ i ∈ is, i.WellFormed)
    (hne : ∀ i ∈ is, i ≠ .encode) (hbusy : s.cbusy = false)
    (hend : EndsAfter cmds ((effects is s).withInputs rest) k) :
    EndsAfter (is.map encodeWord ++ cmds)
      (s.withInputs (is.map (fun i => PortIn.present (encodeWord i)) ++ rest)) (is.length + k) := by
  induction is generalizing s with
  | nil => rwa [List.length_nil, Nat.zero_add]
  | cons i is ih =>
    obtain ⟨hi, his⟩ := List.forall_mem_cons.mp hwf
    obtain ⟨ni, nis⟩ := List.forall_mem_cons.mp hne
    have hlater := ih his nis ((effect_frame ni s).cbusy.trans hbusy) hend
    rw [List.length_cons, Nat.add_right_comm]
    exact hlater.present hi hbusy (fun e => absurd e ni)

end

/-! ### The characters that remain (41_base32_encoder.md R87, R91) -/

@[simp] theorem State.afterChars_cbusy (s : State) (v : DWord) (n : Nat) :
    (s.afterChars v n).cbusy = s.cbusy := rfl

/-- With every command accepted the run ends with the last character to be taken. -/
theorem endsAfter_takes {s : State} (v : DWord) (rest : List PortIn) (hbusy : s.cbusy = false)
    {n k : Nat} (h : n + k = 13) :
    EndsAfter [] ((s.afterChars v n).withInputs (List.replicate k PortIn.take ++ rest)) k := by
  induction k generalizing n with
  | zero =>
    obtain rfl : n = 13 := h
    refine endsAfter_zero ?_ ?_
    · rwa [State.withInputs_cbusy, State.afterChars_cbusy]
    · rw [State.withInputs_cnt, State.afterChars_cnt_drained]
  | succ k ih =>
    have hcnt := s.afterChars_cnt_ne_zero v (n := n) (by omega)
    have hstep := step_take (List.replicate k PortIn.take ++ rest) hcnt
    rw [s.afterChars_emit v (by omega)] at hstep
    exact (ih (by omega)).of_step hstep (fun _ => hcnt)

/-- The run of an ENCODE that finds the serializer drained ends after its thirteen handshakes. -/
theorem endsAfter_encode_takes {s : State} (rest : List PortIn) (hbusy : s.cbusy = false)
    (hcnt : s.cnt = 0) :
    EndsAfter [encodeWord .encode] (s.withInputs (PortIn.present (encodeWord .encode) ::
      (List.replicate 13 PortIn.take ++ rest))) 14 := by
  have htakes := endsAfter_takes s.result rest hbusy (n := 0) (k := 13) rfl
  rw [← s.startSerializer_eq_afterChars, ← effect_encode_idle hcnt] at htakes
  exact htakes.present rfl hbusy (fun _ => hcnt)

end Sys2Proof.Machine
end

section
/-! The statement of 60_exceptions.md. -/

namespace Sys2Proof.Machine

/-- Settles O50: until ENCODE is accepted a command is still missing, and from then on `CNT ≠ 0` until the
thirteenth character is taken. -/
theorem identifierRunEndsWithLastCharacter : Obligations.IdentifierRunEndsWithLastCharacter := by
  intro bytes s rest hcnt hbusy hin
  have frame := effects_frame (hashCommands_ne_encode 0 bytes) s
  have hencode := endsAfter_encode_takes rest (frame.cbusy.trans hbusy) (frame.cnt.trans hcnt)
  have hrun := hencode.commands (hashCommands_wellFormed 0 bytes) (hashCommands_ne_encode 0 bytes) hbusy
  rw [← uniqEntries_append, ← hin, ← length_uniqEntries] at hrun
  rw [List.map_append]
  exact hrun

end Sys2Proof.Machine
end

section
/-! SUPPORT. What the statement of 70_reset_and_hazards.md rests on: the step of an entry with `rst` active
and the two handshake ports while it is (R113, R114). -/

namespace Sys2Proof.Machine

/-- Reset wins over a command and a character handshake of the same entry (R113). -/
theorem step_reset {s : State} {p : PortIn} {rest : List PortIn} (hin : s.inputs = p :: rest)
    (hr : p.rst = true) : step s = .next (s.withInputs rest).applyReset := by
  rw [step_entry hin, if_pos hr]

/-- No command is ready while `rst` is active, presented or not (R114). -/
theorem State.sample_cmdReady_of_rst (s : State) (k : Nat) {p : PortIn} (hr : p.rst = true) :
    (s.sample k p).cmdReady = false := by
  refine Bool.eq_false_iff.mpr fun hready => ?_
  obtain ⟨hrst, _⟩ := (s.cmdReadyPort_iff p).mp hready
  exact Bool.false_ne_true (hrst.symm.trans hr)

/-- No character is offered while `rst` is active, not even a free draw of `CBUSY = 1` (R114). -/
theorem State.sample_chValid_of_rst (s : State) (k : Nat) {p : PortIn} (hr : p.rst = true) :
    (s.sample k p).chValid = false :=
  if_pos hr

end Sys2Proof.Machine
end

section
/-! The statement of 70_reset_and_hazards.md. -/

namespace Sys2Proof.Machine

/-- Settles O9: the step is the reset event on the state whose entry is consumed, each of whose fields is
given by a `simp` lemma of `applyReset`, and both handshake ports are gated by `rst`. -/
theorem resetWinsAndClears : Obligations.ResetWinsAndClears := by
  refine ⟨fun s p rest hin hr => ⟨_, step_reset hin hr, ?_⟩, fun s k p hr =>
    ⟨s.sample_cmdReady_of_rst k hr, s.sample_chValid_of_rst k hr⟩⟩
  simp

end Sys2Proof.Machine
end

section
/-! SUPPORT. What the statements of the machine as a whole rest on: the decoder on words as the opcode
table numbers them (30_encoding.md R49), and the entries that neither reset nor command the CORE. -/

namespace Sys2Proof.Machine

/-- A table word that is the encoder's word of a command decodes to that command (R55). -/
theorem decodeTableWord_encodeWord {nbits w : Nat} {i : Instr} (hwf : i.WellFormed)
    (hw : tableWord nbits w = encodeWord i) : decodeTableWord nbits w = some i := by
  rw [decodeTableWord, hw, decode_encodeWord hwf]
  rfl

/-- A table word whose `OP` is none of R49's ten values is refused (R52). -/
theorem decodeTableWord_reserved {nbits w : Nat} (h : opField (tableWord nbits w) ∉
    [0x00, 0x01, 0x04, 0x05, 0x06, 0x07, 0x08, 0x10, 0x20, 0x21]) :
    decodeTableWord nbits w = none := by
  rw [decodeTableWord, (DecodeRow.reserved h).decode_eq]
  rfl

/-- An entry that drives no port only consumes itself (R109). -/
theorem step_undriven {s : State} {p : PortIn} {rest : List PortIn} (hin : s.inputs = p :: rest)
    (hr : p.rst = false) (hv : p.cmdValid = false) (hch : p.chReady = false) :
    step s = .next (s.withInputs rest) := by
  have ha : s.accepts p = false := by rw [State.accepts, hv, Bool.false_and]
  rw [step_not_accepted hin hr ha, State.serialize_of_not_chReady _ hch]

/-- While the serializer holds characters, an entry that takes one and presents ENCODE hands the
character over and does nothing else (R90, R103). -/
theorem step_take_encode {s : State} {p : PortIn} (rest : List PortIn) (hr : p.rst = false)
    (hch : p.chReady = true) (hop : opField p.cmdData = 0x10) (hcnt : s.cnt ≠ 0) :
    step (s.withInputs (p :: rest)) = .next (s.emit.withInputs rest) := by
  have ha : (s.withInputs (p :: rest)).accepts p = false :=
    State.accepts_of_not_cmdReady (State.cmdReady_encode_waits p.rst hop hcnt)
  have hover : s.handsOver p = true := (s.handsOver_iff p).mpr ⟨hr, hcnt, hch⟩
  rw [step_not_accepted (State.withInputs_inputs _ _) hr ha, State.withInputs_withInputs,
    State.serialize_withInputs, State.serialize, if_pos hover]

end Sys2Proof.Machine
end

section
/-! The statements about sample words, the idle host, the last character's edge and the alphabet. -/

namespace Sys2Proof.Machine

/-- Settles O5: NOP's sample has the `OP` of its row and DATA bits the decoder ignores (R51), the other
samples of commands are the words the encoder writes, and the refused ones have a reserved `OP`. -/
theorem decodeSampleWords : Obligations.DecodeSampleWords := by
  have hnop : decodeTableWord 40 0x00DEADBEEF = some .nop := by
    rw [decodeTableWord, (DecodeRow.nop (by decide)).decode_eq]
    rfl
  refine ⟨hnop, ?_, ?_, ?_, ?_, ?_, ?_, ?_, ?_, ?_, ?_, ?_, ?_, ?_, ?_⟩
  iterate 9 exact decodeTableWord_encodeWord (by decide) (by decide)
  all_goals exact decodeTableWord_reserved (by decide)

/-- Settles O10: with no entry left the step is idle, and an undriven entry is consumed alone. -/
theorem idleHoldsState : Obligations.IdleHoldsState :=
  fun _ => ⟨step_idle, fun _ _ hin hr hv hch => step_undriven hin hr hv hch⟩

/-- Settles O12: ENCODE is judged on `CNT = 1`, so it is refused at the edge that makes `CNT` 0. -/
theorem lastCharacterEdgeRefusesEncode : Obligations.LastCharacterEdgeRefusesEncode := by
  intro s data rest hcnt
  have hstep := step_take_encode (s := s)
    (p := { PortIn.present (0x10#8 ++ data) with chReady := true }) rest rfl rfl (opField_word _ _)
    (by simp [hcnt])
  have hlast : s.cnt - 1 = 0 := by
    rw [hcnt]
    rfl
  rw [State.emit, State.handOver, hlast] at hstep
  exact hstep

/-- Settles O51: the two ranges of R37 are the two cases of `rom`. -/
theorem alphabetRomEntries : Obligations.AlphabetRomEntries :=
  ⟨fun i h => (rom_toNat i).trans (if_pos h),
    fun i h => (rom_toNat i).trans (if_neg (by omega))⟩

end Sys2Proof.Machine
end
